-- ==== Sys2Proof/Word.lean ====
section
/-! DEFINITION. The words of the hardware (00_scope.md R5 and section 7): the byte, the 7-bit payload and
the 64-bit value. Everything is unsigned. -/

namespace Sys2Proof

/-- `u8`, one element of a byte stream: `BYTE_W` = 8 (00_scope.md R5). -/
abbrev Byte := BitVec 8

/-- `u7`, the payload of a byte: `PAYLOAD_W` = 7 (00_scope.md R5). -/
abbrev U7 := BitVec 7

/-- `u64`, a Value: `VALUE_W` = 64 (00_scope.md R5). -/
abbrev U64 := BitVec 64

end Sys2Proof
end

