-- ==== Sys2Proof/Config.lean ====
section
/-! DEFINITION. What the spec leaves open. The fixed parameters of 00_scope.md R5 are not here, because no
model may generalise them: `VALUE_W`, `BYTE_W` and `PAYLOAD_W` are the types of Word.lean, `CONT_BIT` is in
Machine/Bits.lean, `MAX_BYTES` is the range of `dec.n` (Machine/State.lean), and `MAX_SHIFT` follows from it. -/

namespace Sys2Proof

/-- `IOINFO_W`, the open parameter of 00_scope.md R6 (decision D8): any natural number, 0 allowed.
It has no body, so no proof can use a value of it (log entry 1). -/
opaque Config.ioInfoWidth : Nat

/-- `IoInfo`, what a stream reports with a failure; the blocks only copy it (00_scope.md R6). -/
abbrev IoInfo := BitVec Config.ioInfoWidth

/-! The outputs that 10_state.md R35 calls unspecified may have any value and may change from cycle to
cycle. Each is a constant with no body, applied to the state's `tick` (log entry 11). -/

/-- `snk_byte` while `snk_valid` = 0 (R35). -/
opaque Config.freeSnkByte : Nat → Byte

/-- The encoder's `res_status` while its `res_valid` = 0 (R35). -/
opaque Config.freeEncStatus : Nat → BitVec 2

/-- The encoder's `res_info` while `res_valid` = 0 or `res_status` is not 2 (R35). -/
opaque Config.freeEncInfo : Nat → IoInfo

/-- The decoder's `res_status` while its `res_valid` = 0 (R35). -/
opaque Config.freeDecStatus : Nat → BitVec 2

/-- The decoder's `res_value` while `res_valid` = 0 or `res_status` is not 0 (R35). -/
opaque Config.freeDecValue : Nat → U64

/-- The decoder's `res_info` while `res_valid` = 0 or `res_status` is not 2 (R35). -/
opaque Config.freeDecInfo : Nat → IoInfo

end Sys2Proof
end

