-- ==== Sys2Proof/Syntax.lean ====
section
/-! DEFINITION. The instructions: one constructor for each of the 13 rows of opcode_table.json
(30_encoding.md R88). What a row means is in Machine/. -/

namespace Sys2Proof

/-- The two operations and the eleven shapes of the wire format (30_encoding.md R88). The operations have no
bits (R87). A wire row is a byte sequence that the ByteSource delivers to the decoder, given by its
payloads `p0`, `p1`, … in stream order (fields `a`, `b`, … of the table): the continuation bits are fixed
by the row (log entry 5). -/
inductive Instr where
  /-- ENCODE, the operation of `varint_encoder`; its operand is `cmd_value` (40_encoder.md R110). -/
  | encode (value : U64)
  /-- DECODE, the operation of `varint_decoder`; it has no operand but the stream (41_decoder.md R140). -/
  | decode
  /-- VARINT1, an encoded form of one byte (R81, R85). -/
  | varint1 (p0 : U7)
  /-- VARINT2. -/
  | varint2 (p0 p1 : U7)
  /-- VARINT3. -/
  | varint3 (p0 p1 p2 : U7)
  /-- VARINT4. -/
  | varint4 (p0 p1 p2 p3 : U7)
  /-- VARINT5. -/
  | varint5 (p0 p1 p2 p3 p4 : U7)
  /-- VARINT6. -/
  | varint6 (p0 p1 p2 p3 p4 p5 : U7)
  /-- VARINT7. -/
  | varint7 (p0 p1 p2 p3 p4 p5 p6 : U7)
  /-- VARINT8. -/
  | varint8 (p0 p1 p2 p3 p4 p5 p6 p7 : U7)
  /-- VARINT9. -/
  | varint9 (p0 p1 p2 p3 p4 p5 p6 p7 p8 : U7)
  /-- VARINT10; of the last payload only bit 0 has a place in the value (R90). -/
  | varint10 (p0 p1 p2 p3 p4 p5 p6 p7 p8 p9 : U7)
  /-- TOOLONG, ten continuation bytes, the one illegal shape (R89). -/
  | toolong (p0 p1 p2 p3 p4 p5 p6 p7 p8 p9 : U7)
  deriving DecidableEq, Repr

/-- What a row of the table is: an operation, an encoded form of `k` bytes, or the illegal shape. -/
inductive RowKind where
  | operation
  | form (k : Nat)
  | tooLong
  deriving DecidableEq, Repr

/-- The kind of an instruction's row (the table's `format` and the length of its `stream`). -/
def Instr.kind : Instr → RowKind
  | .encode _ => .operation
  | .decode => .operation
  | .varint1 _ => .form 1
  | .varint2 _ _ => .form 2
  | .varint3 _ _ _ => .form 3
  | .varint4 _ _ _ _ => .form 4
  | .varint5 _ _ _ _ _ => .form 5
  | .varint6 _ _ _ _ _ _ => .form 6
  | .varint7 _ _ _ _ _ _ _ => .form 7
  | .varint8 _ _ _ _ _ _ _ _ => .form 8
  | .varint9 _ _ _ _ _ _ _ _ _ => .form 9
  | .varint10 _ _ _ _ _ _ _ _ _ _ => .form 10
  | .toolong _ _ _ _ _ _ _ _ _ _ => .tooLong

/-- The payloads of an instruction in stream order; none for the operations. -/
def Instr.payloads : Instr → List U7
  | .encode _ => []
  | .decode => []
  | .varint1 p0 => [p0]
  | .varint2 p0 p1 => [p0, p1]
  | .varint3 p0 p1 p2 => [p0, p1, p2]
  | .varint4 p0 p1 p2 p3 => [p0, p1, p2, p3]
  | .varint5 p0 p1 p2 p3 p4 => [p0, p1, p2, p3, p4]
  | .varint6 p0 p1 p2 p3 p4 p5 => [p0, p1, p2, p3, p4, p5]
  | .varint7 p0 p1 p2 p3 p4 p5 p6 => [p0, p1, p2, p3, p4, p5, p6]
  | .varint8 p0 p1 p2 p3 p4 p5 p6 p7 => [p0, p1, p2, p3, p4, p5, p6, p7]
  | .varint9 p0 p1 p2 p3 p4 p5 p6 p7 p8 => [p0, p1, p2, p3, p4, p5, p6, p7, p8]
  | .varint10 p0 p1 p2 p3 p4 p5 p6 p7 p8 p9 => [p0, p1, p2, p3, p4, p5, p6, p7, p8, p9]
  | .toolong p0 p1 p2 p3 p4 p5 p6 p7 p8 p9 => [p0, p1, p2, p3, p4, p5, p6, p7, p8, p9]

end Sys2Proof
end

