-- ==== Sys2Proof/Machine/Bits.lean ====
section
/-! DEFINITION. The two fields of a byte (30_encoding.md R80), the order of the bytes in the word `W` of the
operation table (R88), and the truncation of 00_scope.md R10. -/

namespace Sys2Proof.Machine

/-- The continuation bit `c` of a byte, bit 7: 1 = more bytes follow (R80). -/
def contBit (b : Byte) : Bool := b.getLsbD 7

/-- The payload `p` of a byte, bits 6:0 (R80). -/
def payload (b : Byte) : U7 := b.extractLsb' 0 7

/-- `{1, p}`, a continuation byte (R80). -/
def contByte (p : U7) : Byte := 1#1 ++ p

/-- `{0, p}`, a terminator byte (R80). -/
def termByte (p : U7) : Byte := 0#1 ++ p

/-- `v[6:0]` of a value. -/
def low7 (v : U64) : U7 := v.extractLsb' 0 7

/-- `trunc_64(a)` = `a mod 2^64` (00_scope.md R10). -/
def trunc64 (a : Nat) : U64 := BitVec.ofNat 64 a

/-- The word `W` of a byte sequence: byte `i` in bits `8i+7` to `8i` (R88). -/
def wordOfBytes : List Byte → Nat
  | [] => 0
  | b :: bs => b.toNat + 256 * wordOfBytes bs

/-- The first `k` bytes of the word `w`, byte 0 in bits 7:0 (R88). -/
def bytesOfWord : Nat → Nat → List Byte
  | 0, _ => []
  | k + 1, w => BitVec.ofNat 8 w :: bytesOfWord k (w / 256)

/-- The bytes of a form of a wire row: a continuation byte for each of `ps`, then the terminator byte with
payload `p` (R81). -/
def formBytes (ps : List U7) (p : U7) : List Byte := ps.map contByte ++ [termByte p]

end Sys2Proof.Machine
end

