-- ==== Sys2Proof/Machine/Operands.lean ====
section
/-! DEFINITION. The data computations of the two blocks: the byte on offer, the accumulation, and the pure
functions `Enc`, `Len` and `Dec` of the wire format (30_encoding.md R83 to R85, 40_encoder.md R111,
41_decoder.md R141). -/

namespace Sys2Proof.Machine

/-- `EncByte(rem)`: the low seven bits, with the continuation bit when any higher bits remain (R111). -/
def encByte (rem : U64) : Byte := if 128#64 ≤ rem then contByte (low7 rem) else termByte (low7 rem)

/-- The bytes written from the remaining value `rem` on, with at most `k` shifts. -/
def encFrom : Nat → U64 → List Byte
  | 0, rem => [encByte rem]
  | k + 1, rem => encByte rem :: (if 128#64 ≤ rem then encFrom k (rem >>> 7) else [])

/-- `Enc(v)`, the canonical encoding of `v` (R84): at most nine shifts are needed (70_reset_and_hazards.md
R245). -/
def encBytes (v : U64) : List Byte := encFrom 9 v

/-- `bit_length(v)`: the least `k` with `v < 2^k` (00_scope.md R10). -/
def bitLength (v : U64) : Nat := if v = 0#64 then 0 else Nat.log2 v.toNat + 1

/-- `Len(v) = max(1, ceil(bit_length(v) / 7))` (R83). -/
def encLen (v : U64) : Nat := max 1 ((bitLength v + 6) / 7)

/-- `AccStep(acc, n, b) = acc | trunc_64( zext_64(b[6:0]) << (7 × n) )` (R141). The shift is taken in the
natural numbers, so that only `trunc64` drops bits (00_scope.md R10). -/
def accStep (acc : U64) (n : Fin 10) (b : Byte) : U64 :=
  acc ||| trunc64 ((payload b).toNat <<< (7 * n.val))

/-- `dec.n + 1` below the cap; none at `dec.n` = 9, after which no byte is read (R143, R145). -/
def nextIndex (n : Fin 10) : Option (Fin 10) := if h : n.val < 9 then some ⟨n.val + 1, by omega⟩ else none

/-- What `Dec` says of a byte sequence (R85). -/
inductive DecOutcome where
  /-- `NeedMore(n)`: the sequence ended in `Reading(n)`. -/
  | needMore (n : Fin 10)
  /-- `Accept(value, consumed)`. -/
  | accept (value : U64) (consumed : Nat)
  /-- `Reject(TooLong, consumed)`. -/
  | reject (consumed : Nat)
  deriving DecidableEq, Repr

/-- `DecAt(n, acc, s)` (R85). -/
def decAt (n : Fin 10) (acc : U64) : List Byte → DecOutcome
  | [] => .needMore n
  | b :: rest =>
    if contBit b then
      match nextIndex n with
      | some m => decAt m (accStep acc n b) rest
      | none => .reject 10
    else .accept (accStep acc n b) (n.val + 1)

/-- `Dec(s) = DecAt(0, 0, s)` (R85). -/
def decBytes (s : List Byte) : DecOutcome := decAt 0 0#64 s

/-- The accumulator after continuation bytes read from index `n` on. -/
def accFrom (n : Nat) (acc : U64) : List Byte → U64
  | [] => acc
  | b :: rest => accFrom (n + 1) (acc ||| trunc64 ((payload b).toNat <<< (7 * n))) rest

/-- The payloads summed at their places, `sum over i of payload_i × 2^(7i)`, from place `i` on (R88). -/
def payloadSum (i : Nat) : List U7 → Nat
  | [] => 0
  | p :: ps => p.toNat * 2 ^ (7 * i) + payloadSum (i + 1) ps

/-- The value of a `VARINTk` row: `trunc_64(sum over i < k of payload_i × 2^(7i))` (R88). -/
def rowValue (ps : List U7) : U64 := trunc64 (payloadSum 0 ps)

end Sys2Proof.Machine
end

