-- ==== Sys2Proof/Machine/State.lean ====
section
/-! DEFINITION. The state of both blocks (10_state.md R22, R24), the two byte streams and the environment's
choices as plain data (00_scope.md R8, R9), and the state after reset (R36). -/

namespace Sys2Proof.Machine

/-- Nothing stops this machine: "every input byte, every value and every stream answer has a defined
outcome" (93_implementation_defined.md, end of part 1), so there is no fault to raise. -/
inductive Fault where
  deriving DecidableEq, Repr

/-- Why the model answers no meaning. -/
inductive Refusal where
  /-- Raised by an arm of `exec` for an instruction without a meaning; safe. No arm raises it in this model. -/
  | notModelled (mnemonic : String)
  deriving DecidableEq, Repr

/-- What an ENCODE returns (40_encoder.md R110). -/
inductive EncResult where
  /-- `Ok`. -/
  | ok
  /-- `Io(e)`. -/
  | io (e : IoInfo)
  deriving DecidableEq, Repr

/-- The error kinds of the decoder; there are no others (60_exceptions.md R200). -/
inductive DecodeError where
  /-- Ten bytes were consumed, each with continuation bit 1 (R201). -/
  | tooLong
  /-- The ByteSource failed a read with `e` (R202). -/
  | io (e : IoInfo)
  deriving DecidableEq, Repr

/-- What a DECODE returns (41_decoder.md R140). -/
inductive DecResult where
  /-- `Ok(v)`. -/
  | ok (v : U64)
  /-- `Err(err)`. -/
  | err (err : DecodeError)
  deriving DecidableEq, Repr

/-- The encoder's state: the constructor is `enc.phase`, its argument the field that phase lists
(10_state.md R22). -/
inductive EncState where
  | idle
  | emit (rem : U64)
  | done
  | failed (err : IoInfo)
  deriving DecidableEq, Repr

/-- The decoder's state: the constructor is `dec.phase`, its arguments the fields that phase lists
(10_state.md R24). `n` has the values 0 to 9 only (R26). -/
inductive DecState where
  | idle
  | reading (n : Fin 10) (acc : U64)
  | done (value : U64)
  | failed (err : DecodeError)
  deriving DecidableEq, Repr

/-- The events of the encoder with their labels (40_encoder.md section 2). -/
inductive EncEvent where
  | cmd (v : U64)
  | wr (b : Byte)
  | wrfail (e : IoInfo)
  | res (r : EncResult)
  deriving DecidableEq, Repr

/-- The events of the decoder with their labels (41_decoder.md section 2). -/
inductive DecEvent where
  | start
  | rd (b : Byte)
  | rdfail (e : IoInfo)
  | res (r : DecResult)
  deriving DecidableEq, Repr

/-- What the ByteSink drives on `snk_ready`, `snk_fail`, `snk_fail_info` at one edge at which the encoder
offers a byte (10_state.md R30). -/
inductive SnkDrive where
  /-- `snk_ready` = 0, `snk_fail` = 0: no answer yet. -/
  | quiet
  /-- `snk_ready` = 1, `snk_fail` = 0: the byte is accepted. -/
  | ready
  /-- `snk_ready` = 0, `snk_fail` = 1, `snk_fail_info` = `e`. -/
  | fail (e : IoInfo)
  /-- `snk_ready` = 1, `snk_fail` = 1, `snk_fail_info` = `e`. -/
  | both (e : IoInfo)
  deriving DecidableEq, Repr

/-- What the ByteSource drives on `src_valid`, `src_byte`, `src_fail`, `src_fail_info` at one edge at which
the decoder asks for a byte (10_state.md R31). -/
inductive SrcDrive where
  /-- `src_valid` = 0, `src_fail` = 0: no answer yet. -/
  | quiet
  /-- `src_valid` = 1, `src_byte` = `b`, `src_fail` = 0. -/
  | byte (b : Byte)
  /-- `src_valid` = 0, `src_fail` = 1, `src_fail_info` = `e`. -/
  | fail (e : IoInfo)
  /-- `src_valid` = 1, `src_byte` = `b`, `src_fail` = 1, `src_fail_info` = `e`. -/
  | both (b : Byte) (e : IoInfo)
  deriving DecidableEq, Repr

/-- The answer of a `SinkWrite` (20_memory.md R56); no answer yet is the absence of one. -/
inductive SnkAnswer where
  | ok
  | fail (e : IoInfo)
  deriving DecidableEq, Repr

/-- The answer of a `SrcRead` (20_memory.md R55); no answer yet is the absence of one. -/
inductive SrcAnswer where
  | byte (b : Byte)
  | fail (e : IoInfo)
  deriving DecidableEq, Repr

/-- The caller's and the reset inputs of the encoder at one rising edge of its clock (10_state.md R30). The
sink's inputs at that edge are the front of the state's `sink`. -/
structure EncEdge where
  rst : Bool
  cmdValid : Bool
  cmdValue : U64
  resReady : Bool
  deriving DecidableEq, Repr

/-- The caller's and the reset inputs of the decoder at one rising edge of its clock (10_state.md R31). The
source's inputs at that edge are the front of the state's `source`. -/
structure DecEdge where
  rst : Bool
  startValid : Bool
  resReady : Bool
  deriving DecidableEq, Repr

/-- A turn that is not an instruction. -/
inductive EnvTurn where
  /-- The caller of ENCODE takes the result: `enc.res` (40_encoder.md R115). -/
  | takeEnc
  /-- The caller of DECODE takes the result: `dec.res` (41_decoder.md R148). -/
  | takeDec
  /-- An encoder that waits in `Emit` goes on as far as its sink answers (R119). -/
  | resumeEnc
  /-- One rising edge of the encoder's clock (10_state.md R33). -/
  | edgeEnc (e : EncEdge)
  /-- One rising edge of the decoder's clock (R34). -/
  | edgeDec (e : DecEdge)
  /-- The ByteSink's answers go on with `d` (20_memory.md R52). -/
  | grant (d : SnkDrive)
  /-- The ByteSource's answers go on with `d` (R51). -/
  | feed (d : SrcDrive)
  /-- Another agent writes a byte to the ByteSink (R61, 70_reset_and_hazards.md R236). -/
  | foreignWrite (b : Byte)
  /-- Another agent takes the next answer of the ByteSource (R61, R236). -/
  | foreignRead
  deriving DecidableEq, Repr

/-- What happens next (00_scope.md R8): the environment's choices, in order (log entry 3). -/
inductive Turn where
  /-- The caller of ENCODE offers a value. -/
  | encode (value : U64)
  /-- The caller of DECODE offers a start. -/
  | decode
  /-- A decoder in `Reading` goes on: the wire form at the front of its source is fetched and run. -/
  | wire
  | env (t : EnvTurn)
  deriving DecidableEq, Repr

/-- The two blocks and their environment. `enc` and `dec` are the hardware's whole state (10_state.md R22,
R24, 20_memory.md R64); the streams and the traces are what the events act on and what a collaborator sees
(R50, 00_scope.md R9); `agenda` and `tick` are the model's own (log entries 3 and 11). -/
structure State where
  /-- `enc.phase` with its field. -/
  enc : EncState
  /-- `dec.phase` with its fields. -/
  dec : DecState
  /-- The coming answers of the ByteSink, one entry for each edge at which the encoder offers a byte. -/
  sink : List SnkDrive
  /-- The bytes the ByteSink holds, oldest first. -/
  sunk : List Byte
  /-- The coming answers of the ByteSource, one entry for each edge at which the decoder asks. -/
  source : List SrcDrive
  /-- The encoder's events, oldest first. -/
  encTrace : List EncEvent
  /-- The decoder's events, oldest first. -/
  decTrace : List DecEvent
  /-- What happens next. -/
  agenda : List Turn
  /-- A counter every step advances; it selects the free values of the unspecified outputs (R35). -/
  tick : Nat
  deriving DecidableEq, Repr

/-- The state after reset: both phases `Idle`, no data field (10_state.md R36, 70_reset_and_hazards.md
R231). The streams, the traces and the agenda are empty and the counter is 0 (log entry 19). -/
def State.reset : State where
  enc := .idle
  dec := .idle
  sink := []
  sunk := []
  source := []
  encTrace := []
  decTrace := []
  agenda := []
  tick := 0

end Sys2Proof.Machine
end

