-- ==== Sys2Proof/Machine/Flags.lean ====
section
/-! DEFINITION. Status. There is no flag register (10_state.md R28): the only status is the outcome of an
operation, held in the phase and shown on the result ports with the codes of 60_exceptions.md R204. -/

namespace Sys2Proof.Machine

/-- The outcome an encoder's phase holds: `Ok` in `Done`, `Io(e)` in `Failed` (R28, 40_encoder.md R115). -/
def EncState.result : EncState → Option EncResult
  | .idle => none
  | .emit _ => none
  | .done => some .ok
  | .failed e => some (.io e)

/-- The outcome a decoder's phase holds (R28, 41_decoder.md R148). -/
def DecState.result : DecState → Option DecResult
  | .idle => none
  | .reading _ _ => none
  | .done v => some (.ok v)
  | .failed err => some (.err err)

/-- The code of an ENCODE's outcome on `res_status` (R204). -/
def EncResult.code : EncResult → BitVec 2
  | .ok => 0#2
  | .io _ => 2#2

/-- The code of a DECODE's outcome on `res_status` (R204). -/
def DecResult.code : DecResult → BitVec 2
  | .ok _ => 0#2
  | .err .tooLong => 1#2
  | .err (.io _) => 2#2

/-- The outputs of `varint_encoder` (10_state.md R30). -/
structure EncOut where
  cmdReady : Bool
  snkValid : Bool
  snkByte : Byte
  resValid : Bool
  resStatus : BitVec 2
  resInfo : IoInfo
  deriving DecidableEq, Repr

/-- The outputs of `varint_decoder` (R31). -/
structure DecOut where
  startReady : Bool
  srcReady : Bool
  resValid : Bool
  resStatus : BitVec 2
  resValue : U64
  resInfo : IoInfo
  deriving DecidableEq, Repr

/-- The encoder's outputs in a state; an unspecified one is the free value of the cycle `tick` (R30, R35). -/
def encOutputs (tick : Nat) : EncState → EncOut
  | .idle => ⟨true, false, Config.freeSnkByte tick, false, Config.freeEncStatus tick, Config.freeEncInfo tick⟩
  | .emit rem => ⟨false, true, encByte rem, false, Config.freeEncStatus tick, Config.freeEncInfo tick⟩
  | .done => ⟨false, false, Config.freeSnkByte tick, true, EncResult.ok.code, Config.freeEncInfo tick⟩
  | .failed e => ⟨false, false, Config.freeSnkByte tick, true, (EncResult.io e).code, e⟩

/-- The decoder's outputs in a state; an unspecified one is the free value of the cycle `tick` (R31, R35). -/
def decOutputs (tick : Nat) : DecState → DecOut
  | .idle => ⟨true, false, false, Config.freeDecStatus tick, Config.freeDecValue tick, Config.freeDecInfo tick⟩
  | .reading _ _ =>
    ⟨false, true, false, Config.freeDecStatus tick, Config.freeDecValue tick, Config.freeDecInfo tick⟩
  | .done v => ⟨false, false, true, (DecResult.ok v).code, v, Config.freeDecInfo tick⟩
  | .failed .tooLong =>
    ⟨false, false, true, (DecResult.err .tooLong).code, Config.freeDecValue tick, Config.freeDecInfo tick⟩
  | .failed (.io e) => ⟨false, false, true, (DecResult.err (.io e)).code, Config.freeDecValue tick, e⟩

/-- The encoder's outputs now. -/
def State.encOut (s : State) : EncOut := encOutputs s.tick s.enc

/-- The decoder's outputs now. -/
def State.decOut (s : State) : DecOut := decOutputs s.tick s.dec

end Sys2Proof.Machine
end

