-- ==== Sys2Proof/Machine/Ops.lean ====
section
/-! DEFINITION. The named operations: updates of the state, the answers of the streams, raising an error and
returning from one, the guarded events of the two blocks, and the two loops that the operations are
(40_encoder.md R110, 41_decoder.md R140). -/

namespace Sys2Proof.Machine

/-! ## Updates of the state -/

/-- The encoder block moves to `e`. -/
def State.setEnc (s : State) (e : EncState) : State := { s with enc := e }

/-- The decoder block moves to `d`. -/
def State.setDec (s : State) (d : DecState) : State := { s with dec := d }

/-- The ByteSink's coming answers become `ds`. -/
def State.setSink (s : State) (ds : List SnkDrive) : State := { s with sink := ds }

/-- The ByteSource's coming answers become `ds`. -/
def State.setSource (s : State) (ds : List SrcDrive) : State := { s with source := ds }

/-- Bytes are appended to the ByteSink (20_memory.md R52). -/
def State.append (s : State) (bs : List Byte) : State := { s with sunk := s.sunk ++ bs }

/-- An event of the encoder is observed (00_scope.md R9). -/
def State.noteEnc (s : State) (ev : EncEvent) : State := { s with encTrace := s.encTrace ++ [ev] }

/-- An event of the decoder is observed (R9). -/
def State.noteDec (s : State) (ev : DecEvent) : State := { s with decTrace := s.decTrace ++ [ev] }

/-- The next step begins: the front turn is taken off the agenda and the counter advances. -/
def State.advance (s : State) : State := { s with agenda := s.agenda.tail, tick := s.tick + 1 }

/-! ## The answers of the streams -/

/-- The answer that the ByteSink's pins give: a failure wins over an acceptance at the same edge
(10_state.md R33, decision D7). -/
def SnkDrive.answer : SnkDrive → Option SnkAnswer
  | .quiet => none
  | .ready => some .ok
  | .fail e => some (.fail e)
  | .both e => some (.fail e)

/-- The answer that the ByteSource's pins give: a failure wins over a byte at the same edge, and that byte is
not consumed (R34, decision D7). -/
def SrcDrive.answer : SrcDrive → Option SrcAnswer
  | .quiet => none
  | .byte b => some (.byte b)
  | .fail e => some (.fail e)
  | .both _ e => some (.fail e)

/-- The drive of the raw pins `snk_ready`, `snk_fail`, `snk_fail_info` (R30). -/
def SnkDrive.ofPins (ready fail : Bool) (info : IoInfo) : SnkDrive :=
  match ready, fail with
  | false, false => .quiet
  | true, false => .ready
  | false, true => .fail info
  | true, true => .both info

/-- The drive of the raw pins `src_valid`, `src_byte`, `src_fail`, `src_fail_info` (R31). -/
def SrcDrive.ofPins (valid : Bool) (byte : Byte) (fail : Bool) (info : IoInfo) : SrcDrive :=
  match valid, fail with
  | false, false => .quiet
  | true, false => .byte byte
  | false, true => .fail info
  | true, true => .both byte info

/-- A stream past its next `k` answers, waits included. -/
def pastAnswers {α β : Type} (f : α → Option β) : Nat → List α → List α
  | 0, ds => ds
  | _ + 1, [] => []
  | k + 1, d :: ds => if (f d).isSome then pastAnswers f k ds else pastAnswers f (k + 1) ds

/-- The bytes that answers deliver before the first failure. -/
def leadBytes : List SrcAnswer → List Byte
  | [] => []
  | .fail _ :: _ => []
  | .byte b :: as => b :: leadBytes as

/-- The answers still to come from the ByteSink, in order (20_memory.md R52). -/
def State.sinkAnswers (s : State) : List SnkAnswer := s.sink.filterMap SnkDrive.answer

/-- The answers still to come from the ByteSource, in order (R51). -/
def State.sourceAnswers (s : State) : List SrcAnswer := s.source.filterMap SrcDrive.answer

/-- The bytes that the ByteSource will deliver before it fails or falls silent. -/
def State.frontBytes (s : State) : List Byte := leadBytes s.sourceAnswers

/-! ## Raising an error, and returning -/

/-- Raising an error in the encoder: the phase becomes `Failed` with the error, nothing is saved
(60_exceptions.md R209). -/
def EncState.raise (_ : EncState) (e : IoInfo) : EncState := .failed e

/-- Raising an error in the decoder: the phase becomes `Failed` with the error, nothing is saved and the
partial value is lost (R208). -/
def DecState.raise (_ : DecState) (err : DecodeError) : DecState := .failed err

/-- The result is handed over: the phase becomes `Idle`, nothing is restored (R210). -/
def EncState.handOver (_ : EncState) : EncState := .idle

/-- The result is handed over: the phase becomes `Idle`, nothing is restored (R210). -/
def DecState.handOver (_ : DecState) : DecState := .idle

/-! ## The events -/

/-- The encoder's events on its own state: none where the guard does not hold or the label is not the one the
state gives (40_encoder.md R112 to R115). -/
def encFire : EncState → EncEvent → Option EncState
  | .idle, .cmd v => some (.emit v)
  | .emit rem, .wr b =>
    if b = encByte rem then some (if 128#64 ≤ rem then .emit (rem >>> 7) else .done) else none
  | .emit rem, .wrfail e => some ((EncState.emit rem).raise e)
  | st, .res r => if st.result = some r then some st.handOver else none
  | _, _ => none

/-- A byte that is consumed at index `n` with accumulator `acc` (41_decoder.md R143 to R145). -/
def readByte (n : Fin 10) (acc : U64) (b : Byte) : DecState :=
  if contBit b then
    match nextIndex n with
    | some m => .reading m (accStep acc n b)
    | none => (DecState.reading n acc).raise .tooLong
  else .done (accStep acc n b)

/-- The decoder's events on its own state: none where the guard does not hold or the label is not the one the
state gives (41_decoder.md R142 to R148). -/
def decFire : DecState → DecEvent → Option DecState
  | .idle, .start => some (.reading 0 0#64)
  | .reading n acc, .rd b => some (readByte n acc b)
  | .reading n acc, .rdfail e => some ((DecState.reading n acc).raise (.io e))
  | st, .res r => if st.result = some r then some st.handOver else none
  | _, _ => none

/-- The bytes that an event of the encoder puts into the ByteSink (R113; R114 writes none). -/
def EncEvent.written : EncEvent → List Byte
  | .cmd _ => []
  | .wr b => [b]
  | .wrfail _ => []
  | .res _ => []

/-- An event of the encoder in the whole state; where it is not enabled, nothing happens. -/
def State.encEvent (s : State) (ev : EncEvent) : State :=
  match encFire s.enc ev with
  | some e => ((s.setEnc e).append ev.written).noteEnc ev
  | none => s

/-- An event of the decoder in the whole state; where it is not enabled, nothing happens. -/
def State.decEvent (s : State) (ev : DecEvent) : State :=
  match decFire s.dec ev with
  | some d => (s.setDec d).noteDec ev
  | none => s

/-! ## One access, and the loops of the operations -/

/-- The ByteSink's pins at one edge at which the encoder offers a byte: the byte is accepted, the write
fails, or the encoder waits (R113, R114, R119). -/
def State.offer (s : State) (d : SnkDrive) : State :=
  match s.enc with
  | .emit rem =>
    match d.answer with
    | some .ok => s.encEvent (.wr (encByte rem))
    | some (.fail e) => s.encEvent (.wrfail e)
    | none => s
  | .idle => s
  | .done => s
  | .failed _ => s

/-- The ByteSource's pins at one edge at which the decoder asks for a byte: a byte is consumed, the read fails,
or the decoder waits (R143 to R147, R151). -/
def State.ask (s : State) (d : SrcDrive) : State :=
  match s.dec with
  | .reading _ _ =>
    match d.answer with
    | some (.byte b) => s.decEvent (.rd b)
    | some (.fail e) => s.decEvent (.rdfail e)
    | none => s
  | .idle => s
  | .done _ => s
  | .failed _ => s

/-- The encoder's loop: while it is in `Emit`, one `SinkWrite` after another (R110), as far as the answers
`ds` go. -/
def writeLoop : List SnkDrive → State → State
  | [], s => s
  | d :: ds, s =>
    match s.enc with
    | .emit _ => writeLoop ds ((s.setSink ds).offer d)
    | .idle => s
    | .done => s
    | .failed _ => s

/-- The decoder's loop: while it is in `Reading`, one `SrcRead` after another (R140), as far as the answers
`ds` go. -/
def readLoop : List SrcDrive → State → State
  | [], s => s
  | d :: ds, s =>
    match s.dec with
    | .reading _ _ => readLoop ds ((s.setSource ds).ask d)
    | .idle => s
    | .done _ => s
    | .failed _ => s

/-- The encoder goes on as far as its sink answers. -/
def State.writeOn (s : State) : State := writeLoop s.sink s

/-- The decoder goes on as far as its source answers. -/
def State.readOn (s : State) : State := readLoop s.source s

/-- The ByteSource delivers `bs` next, and the decoder, if it is reading, goes on (20_memory.md R55). -/
def State.deliver (s : State) (bs : List Byte) : State :=
  (s.setSource (bs.map SrcDrive.byte ++ s.source)).readOn

end Sys2Proof.Machine
end

