-- ==== Sys2Proof/Machine/Decoder.lean ====
section
/-! DEFINITION. The operation of `varint_decoder` (41_decoder.md). -/

namespace Sys2Proof.Machine

/-- DECODE (R140): the start is taken in `Idle` (R142), and the decoder reads as far as its source answers. It
ends in `Done` or `Failed` with the result waiting (R148), or waits in `Reading` (R151). Outside `Idle` the
start is not taken and not remembered (R142). -/
def execDecode (s : State) : Host.Outcome State Fault Refusal :=
  match s.dec with
  | .idle => .next (s.decEvent .start).readOn
  | .reading _ _ => .next s
  | .done _ => .next s
  | .failed _ => .next s

end Sys2Proof.Machine
end

