-- ==== Sys2Proof/Machine/Encoder.lean ====
section
/-! DEFINITION. The operation of `varint_encoder` (40_encoder.md). -/

namespace Sys2Proof.Machine

/-- ENCODE (R110): the value is taken in `Idle` (R112), and the encoder writes as far as its sink answers. It
ends in `Done` or `Failed` with the result waiting (R115), or waits in `Emit` (R119). Outside `Idle` the value
is not taken and not remembered (R112). -/
def execEncode (value : U64) (s : State) : Host.Outcome State Fault Refusal :=
  match s.enc with
  | .idle => .next (s.encEvent (.cmd value)).writeOn
  | .emit _ => .next s
  | .done => .next s
  | .failed _ => .next s

end Sys2Proof.Machine
end

