-- ==== Sys2Proof/Decode.lean ====
section
/-! DEFINITION. The decoder of the wire format, total on any byte sequence, and after it the encoder
(30_encoding.md). A sequence that ends before its terminator, and before ten continuation bytes, is rejected
by name: it is the incomplete form `NeedMore` of R85, R88. The two operations have no bits (R87). -/

namespace Sys2Proof

open Machine

/-- What the decoder finds at the front of a byte sequence. -/
inductive Decoded where
  /-- A wire row stands there, and these bytes follow it. -/
  | form (i : Instr) (rest : List Byte)
  /-- Rejected: the sequence ends after `n` continuation bytes (`NeedMore(n)` of R85). -/
  | needMore (n : Nat)
  deriving DecidableEq, Repr

/-- The payloads of the continuation bytes at the front of a sequence, at most `cap` of them. -/
def leadingPayloads : Nat → List Byte → List U7
  | 0, _ => []
  | _ + 1, [] => []
  | cap + 1, b :: bs => if contBit b then payload b :: leadingPayloads cap bs else []

/-- The encoded form that has these payloads, if they are 1 to 10 (R81, R88). -/
def varintOf : List U7 → Option Instr
  | [p0] => some (.varint1 p0)
  | [p0, p1] => some (.varint2 p0 p1)
  | [p0, p1, p2] => some (.varint3 p0 p1 p2)
  | [p0, p1, p2, p3] => some (.varint4 p0 p1 p2 p3)
  | [p0, p1, p2, p3, p4] => some (.varint5 p0 p1 p2 p3 p4)
  | [p0, p1, p2, p3, p4, p5] => some (.varint6 p0 p1 p2 p3 p4 p5)
  | [p0, p1, p2, p3, p4, p5, p6] => some (.varint7 p0 p1 p2 p3 p4 p5 p6)
  | [p0, p1, p2, p3, p4, p5, p6, p7] => some (.varint8 p0 p1 p2 p3 p4 p5 p6 p7)
  | [p0, p1, p2, p3, p4, p5, p6, p7, p8] => some (.varint9 p0 p1 p2 p3 p4 p5 p6 p7 p8)
  | [p0, p1, p2, p3, p4, p5, p6, p7, p8, p9] => some (.varint10 p0 p1 p2 p3 p4 p5 p6 p7 p8 p9)
  | _ => none

/-- The illegal shape that has these payloads, if they are ten (R89). -/
def tooLongOf : List U7 → Option Instr
  | [p0, p1, p2, p3, p4, p5, p6, p7, p8, p9] => some (.toolong p0 p1 p2 p3 p4 p5 p6 p7 p8 p9)
  | _ => none

/-- A row that was found, or the rejection by name. -/
def decodedOf (n : Nat) (rest : List Byte) : Option Instr → Decoded
  | some i => .form i rest
  | none => .needMore n

/-- R86: read bytes in order and stop at the first with continuation bit 0, or at the tenth byte,
whichever comes first. -/
def decode (bs : List Byte) : Decoded :=
  let ps := leadingPayloads 10 bs
  match tooLongOf ps with
  | some i => .form i (bs.drop 10)
  | none =>
    match bs.drop ps.length with
    | [] => .needMore ps.length
    | b :: rest => decodedOf ps.length rest (varintOf (ps ++ [payload b]))

/-- The bytes of an instruction in stream order, as the `stream` lists of the operation table give them; none
for the two operations, which no bit pattern selects (R87). -/
def encode : Instr → List Byte
  | .encode _ => []
  | .decode => []
  | .varint1 p0 => formBytes [] p0
  | .varint2 p0 p1 => formBytes [p0] p1
  | .varint3 p0 p1 p2 => formBytes [p0, p1] p2
  | .varint4 p0 p1 p2 p3 => formBytes [p0, p1, p2] p3
  | .varint5 p0 p1 p2 p3 p4 => formBytes [p0, p1, p2, p3] p4
  | .varint6 p0 p1 p2 p3 p4 p5 => formBytes [p0, p1, p2, p3, p4] p5
  | .varint7 p0 p1 p2 p3 p4 p5 p6 => formBytes [p0, p1, p2, p3, p4, p5] p6
  | .varint8 p0 p1 p2 p3 p4 p5 p6 p7 => formBytes [p0, p1, p2, p3, p4, p5, p6] p7
  | .varint9 p0 p1 p2 p3 p4 p5 p6 p7 p8 => formBytes [p0, p1, p2, p3, p4, p5, p6, p7] p8
  | .varint10 p0 p1 p2 p3 p4 p5 p6 p7 p8 p9 => formBytes [p0, p1, p2, p3, p4, p5, p6, p7, p8] p9
  | .toolong p0 p1 p2 p3 p4 p5 p6 p7 p8 p9 => [p0, p1, p2, p3, p4, p5, p6, p7, p8, p9].map contByte

/-- A row of the operation table: `width` bits, and the word `W` matches when `W & mask = pattern` (R88). -/
structure Row where
  mnemonic : String
  width : Nat
  mask : Nat
  pattern : Nat
  deriving DecidableEq, Repr

/-- R88: the row matches the first `width / 8` bytes of a sequence, read as the word `W`. -/
def Row.matchesBytes (r : Row) (bs : List Byte) : Bool :=
  decide (r.width / 8 ≤ bs.length) && (wordOfBytes (bs.take (r.width / 8)) &&& r.mask == r.pattern)

/-- The row of an instruction, copied from opcode_table.json. -/
def rowOf : Instr → Row
  | .encode _ => ⟨"ENCODE", 0, 0x0, 0x0⟩
  | .decode => ⟨"DECODE", 0, 0x0, 0x0⟩
  | .varint1 _ => ⟨"VARINT1", 8, 0x80, 0x0⟩
  | .varint2 _ _ => ⟨"VARINT2", 16, 0x8080, 0x80⟩
  | .varint3 _ _ _ => ⟨"VARINT3", 24, 0x808080, 0x8080⟩
  | .varint4 _ _ _ _ => ⟨"VARINT4", 32, 0x80808080, 0x808080⟩
  | .varint5 _ _ _ _ _ => ⟨"VARINT5", 40, 0x8080808080, 0x80808080⟩
  | .varint6 _ _ _ _ _ _ => ⟨"VARINT6", 48, 0x808080808080, 0x8080808080⟩
  | .varint7 _ _ _ _ _ _ _ => ⟨"VARINT7", 56, 0x80808080808080, 0x808080808080⟩
  | .varint8 _ _ _ _ _ _ _ _ => ⟨"VARINT8", 64, 0x8080808080808080, 0x80808080808080⟩
  | .varint9 _ _ _ _ _ _ _ _ _ => ⟨"VARINT9", 72, 0x808080808080808080, 0x8080808080808080⟩
  | .varint10 _ _ _ _ _ _ _ _ _ _ => ⟨"VARINT10", 80, 0x80808080808080808080, 0x808080808080808080⟩
  | .toolong _ _ _ _ _ _ _ _ _ _ => ⟨"TOOLONG", 80, 0x80808080808080808080, 0x80808080808080808080⟩

/-- The eleven wire rows of the table (R88), one instruction for each. -/
def wireRows : List Row :=
  [rowOf (.varint1 0), rowOf (.varint2 0 0), rowOf (.varint3 0 0 0), rowOf (.varint4 0 0 0 0),
   rowOf (.varint5 0 0 0 0 0), rowOf (.varint6 0 0 0 0 0 0), rowOf (.varint7 0 0 0 0 0 0 0),
   rowOf (.varint8 0 0 0 0 0 0 0 0), rowOf (.varint9 0 0 0 0 0 0 0 0 0),
   rowOf (.varint10 0 0 0 0 0 0 0 0 0 0), rowOf (.toolong 0 0 0 0 0 0 0 0 0 0)]

/-- The ten bytes that the word `w` of a table row of `nbits` bits lays on the stream: `nbits` bits of `w`,
byte 0 lowest (R88), and zeros up to the longest row. -/
def tableBytes (nbits w : Nat) : List Byte := bytesOfWord 10 (w % 2 ^ nbits)

/-- The instruction that the word `w` of a table row of `nbits` bits stands for. A row of no bits is an
operation, which no bit selects (R87): it is read as DECODE, the operation that needs no operand either (log
entry 6). -/
def decodeTableWord (nbits w : Nat) : Option Instr :=
  if nbits = 0 then some .decode
  else
    match decode (tableBytes nbits w) with
    | .form i _ => some i
    | .needMore _ => none

end Sys2Proof
end

