-- ==== Sys2Proof/Machine/Wire.lean ====
section
/-! DEFINITION. The wire rows (30_encoding.md R85, R88, R89): the ByteSource delivers the row's bytes, and a
decoder that is reading consumes them one by one. From `Reading(0)` a `VARINTk` ends the DECODE in `Done` after
`k` bytes and TOOLONG ends it in `Failed(TooLong)` after ten. Outside `Reading` the decoder takes no byte, so the
bytes stay at the front of the source (10_state.md R34; log entry 5). -/

namespace Sys2Proof.Machine

/-- VARINT1: 1 byte. -/
def execVarint1 (p0 : U7) (s : State) : Host.Outcome State Fault Refusal :=
  .next (s.deliver (encode (.varint1 p0)))

/-- VARINT2: 2 bytes. -/
def execVarint2 (p0 p1 : U7) (s : State) : Host.Outcome State Fault Refusal :=
  .next (s.deliver (encode (.varint2 p0 p1)))

/-- VARINT3: 3 bytes. -/
def execVarint3 (p0 p1 p2 : U7) (s : State) : Host.Outcome State Fault Refusal :=
  .next (s.deliver (encode (.varint3 p0 p1 p2)))

/-- VARINT4: 4 bytes. -/
def execVarint4 (p0 p1 p2 p3 : U7) (s : State) : Host.Outcome State Fault Refusal :=
  .next (s.deliver (encode (.varint4 p0 p1 p2 p3)))

/-- VARINT5: 5 bytes. -/
def execVarint5 (p0 p1 p2 p3 p4 : U7) (s : State) : Host.Outcome State Fault Refusal :=
  .next (s.deliver (encode (.varint5 p0 p1 p2 p3 p4)))

/-- VARINT6: 6 bytes. -/
def execVarint6 (p0 p1 p2 p3 p4 p5 : U7) (s : State) : Host.Outcome State Fault Refusal :=
  .next (s.deliver (encode (.varint6 p0 p1 p2 p3 p4 p5)))

/-- VARINT7: 7 bytes. -/
def execVarint7 (p0 p1 p2 p3 p4 p5 p6 : U7) (s : State) : Host.Outcome State Fault Refusal :=
  .next (s.deliver (encode (.varint7 p0 p1 p2 p3 p4 p5 p6)))

/-- VARINT8: 8 bytes. -/
def execVarint8 (p0 p1 p2 p3 p4 p5 p6 p7 : U7) (s : State) : Host.Outcome State Fault Refusal :=
  .next (s.deliver (encode (.varint8 p0 p1 p2 p3 p4 p5 p6 p7)))

/-- VARINT9: 9 bytes. -/
def execVarint9 (p0 p1 p2 p3 p4 p5 p6 p7 p8 : U7) (s : State) : Host.Outcome State Fault Refusal :=
  .next (s.deliver (encode (.varint9 p0 p1 p2 p3 p4 p5 p6 p7 p8)))

/-- VARINT10: 10 bytes. -/
def execVarint10 (p0 p1 p2 p3 p4 p5 p6 p7 p8 p9 : U7) (s : State) : Host.Outcome State Fault Refusal :=
  .next (s.deliver (encode (.varint10 p0 p1 p2 p3 p4 p5 p6 p7 p8 p9)))

/-- TOOLONG: ten continuation bytes. -/
def execToolong (p0 p1 p2 p3 p4 p5 p6 p7 p8 p9 : U7) (s : State) : Host.Outcome State Fault Refusal :=
  .next (s.deliver (encode (.toolong p0 p1 p2 p3 p4 p5 p6 p7 p8 p9)))

end Sys2Proof.Machine
end

