-- ==== Sys2Proof/Machine/Dispatch.lean ====
section
/-! DEFINITION. The meaning of every instruction: one arm for each row of the operation table. -/

namespace Sys2Proof.Machine

def exec (i : Instr) (s : State) : Host.Outcome State Fault Refusal :=
  match i with
  | .encode value => Sys2Proof.Machine.execEncode value s
  | .decode => Sys2Proof.Machine.execDecode s
  | .varint1 p0 => Sys2Proof.Machine.execVarint1 p0 s
  | .varint2 p0 p1 => Sys2Proof.Machine.execVarint2 p0 p1 s
  | .varint3 p0 p1 p2 => Sys2Proof.Machine.execVarint3 p0 p1 p2 s
  | .varint4 p0 p1 p2 p3 => Sys2Proof.Machine.execVarint4 p0 p1 p2 p3 s
  | .varint5 p0 p1 p2 p3 p4 => Sys2Proof.Machine.execVarint5 p0 p1 p2 p3 p4 s
  | .varint6 p0 p1 p2 p3 p4 p5 => Sys2Proof.Machine.execVarint6 p0 p1 p2 p3 p4 p5 s
  | .varint7 p0 p1 p2 p3 p4 p5 p6 => Sys2Proof.Machine.execVarint7 p0 p1 p2 p3 p4 p5 p6 s
  | .varint8 p0 p1 p2 p3 p4 p5 p6 p7 => Sys2Proof.Machine.execVarint8 p0 p1 p2 p3 p4 p5 p6 p7 s
  | .varint9 p0 p1 p2 p3 p4 p5 p6 p7 p8 => Sys2Proof.Machine.execVarint9 p0 p1 p2 p3 p4 p5 p6 p7 p8 s
  | .varint10 p0 p1 p2 p3 p4 p5 p6 p7 p8 p9 => Sys2Proof.Machine.execVarint10 p0 p1 p2 p3 p4 p5 p6 p7 p8 p9 s
  | .toolong p0 p1 p2 p3 p4 p5 p6 p7 p8 p9 => Sys2Proof.Machine.execToolong p0 p1 p2 p3 p4 p5 p6 p7 p8 p9 s

end Sys2Proof.Machine
end

