-- ==== Sys2Proof/Machine/Ports.lean ====
section
/-! DEFINITION. The signal level: one rising edge of a block's clock causes at most one event (10_state.md
section 5, R32 to R34; reset, 70_reset_and_hazards.md R230). -/

namespace Sys2Proof.Machine

/-- The ByteSink's pins at an edge at which the encoder offers a byte are the front of `sink`; a sink with
nothing listed drives 0 on both (10_state.md R33; log entry 4). -/
def State.sinkEdge (s : State) : State :=
  match s.sink with
  | [] => s.offer .quiet
  | d :: ds => (s.setSink ds).offer d

/-- The ByteSource's pins at an edge at which the decoder asks are the front of `source` (R34). -/
def State.sourceEdge (s : State) : State :=
  match s.source with
  | [] => s.ask .quiet
  | d :: ds => (s.setSource ds).ask d

/-- One rising edge of the encoder's clock (R33). -/
def State.encClock (s : State) (e : EncEdge) : State :=
  if e.rst then s.setEnc .idle
  else
    match s.enc with
    | .idle => if e.cmdValid then s.encEvent (.cmd e.cmdValue) else s
    | .emit _ => s.sinkEdge
    | .done => if e.resReady then s.encEvent (.res .ok) else s
    | .failed err => if e.resReady then s.encEvent (.res (.io err)) else s

/-- One rising edge of the decoder's clock (R34). -/
def State.decClock (s : State) (e : DecEdge) : State :=
  if e.rst then s.setDec .idle
  else
    match s.dec with
    | .idle => if e.startValid then s.decEvent .start else s
    | .reading _ _ => s.sourceEdge
    | .done v => if e.resReady then s.decEvent (.res (.ok v)) else s
    | .failed err => if e.resReady then s.decEvent (.res (.err err)) else s

/-- The caller of ENCODE takes the result, if one waits (40_encoder.md R115). -/
def State.takeEnc (s : State) : State :=
  match s.enc.result with
  | some r => s.encEvent (.res r)
  | none => s

/-- The caller of DECODE takes the result, if one waits (41_decoder.md R148). -/
def State.takeDec (s : State) : State :=
  match s.dec.result with
  | some r => s.decEvent (.res r)
  | none => s

/-- A turn that is not an instruction. -/
def State.envTurn (s : State) : EnvTurn → State
  | .takeEnc => s.takeEnc
  | .takeDec => s.takeDec
  | .resumeEnc => s.writeOn
  | .edgeEnc e => s.encClock e
  | .edgeDec e => s.decClock e
  | .grant d => s.setSink (s.sink ++ [d])
  | .feed d => s.setSource (s.source ++ [d])
  | .foreignWrite b => s.append [b]
  | .foreignRead => s.setSource (pastAnswers SrcDrive.answer 1 s.source)

end Sys2Proof.Machine
end

