-- ==== Sys2Proof/Machine/Fetch.lean ====
section
/-! DEFINITION. Where a wire row is fetched from: the front of the ByteSource, by a decoder that is reading
(20_memory.md R55, R64; log entry 5). -/

namespace Sys2Proof.Machine

/-- The wire row at the front of the source, if the decoder is reading and a whole row stands there. -/
def State.fetchWire (s : State) : Option Instr :=
  match s.dec with
  | .reading _ _ =>
    match decode s.frontBytes with
    | .form i _ => some i
    | .needMore _ => none
  | .idle => none
  | .done _ => none
  | .failed _ => none

/-- The source moves past the bytes of a fetched row, with the waits listed before and between them. DESIGN CHOICE (log
entry 22; 20_memory.md R51 leaves every wait free): a wait listed before a byte of the row that the decoder then does
not consume (the cap reached inside the row, from `Reading(n)` with `n > 0`) is gone, where clock edges and `readOn`
keep it. -/
def State.pastWire (s : State) (i : Instr) : State :=
  s.setSource (pastAnswers SrcDrive.answer (encode i).length s.source)

/-- The decoder starts a DECODE of which the ByteSource will deliver the bytes `bs` (used by `withFetchWord`). -/
def State.loadWire (s : State) (bs : List Byte) : State :=
  (((s.setDec .idle).decEvent .start).setSource (bs.map SrcDrive.byte ++ s.source))

end Sys2Proof.Machine
end

