-- ==== Sys2Proof/Machine/Step.lean ====
section
/-! DEFINITION. One step: the front turn of the agenda happens (00_scope.md R7, R8; log entry 3). A step
without a turn is a cycle in which nothing happens. -/

namespace Sys2Proof.Machine

/-- A decoder that is reading runs the wire row at the front of its source; where no whole row stands there, it
reads what there is, a failure included, and waits (41_decoder.md R147, R151). Bytes of the row that are not consumed
stay at the front of the source without the waits listed between them (DESIGN CHOICE, log entry 22). -/
def stepWire (s : State) : Host.Outcome State Fault Refusal :=
  match s.fetchWire with
  | some i => exec i (s.pastWire i)
  | none => .next s.readOn

/-- The turn `t` happens. -/
def stepTurn (t : Turn) (s : State) : Host.Outcome State Fault Refusal :=
  match t with
  | .encode v => exec (.encode v) s
  | .decode => exec .decode s
  | .wire => stepWire s
  | .env e => .next (s.envTurn e)

/-- One step of the machine. -/
def step (s : State) : Host.Outcome State Fault Refusal :=
  match s.agenda with
  | [] => .next s.advance
  | t :: _ => stepTurn t s.advance

/-- The word `w` of a table row of `nbits` bits placed where the next step fetches it: a row without bits is a
DECODE turn (log entry 6); the bytes of a wire row stand at the front of the source of a started decoder. -/
def State.withFetchWord (s : State) (nbits w : Nat) : State :=
  if nbits = 0 then { s with dec := .idle, agenda := .decode :: s.agenda }
  else { s.loadWire (tableBytes nbits w) with agenda := .wire :: s.agenda }

end Sys2Proof.Machine
end

