-- ==== Sys2Proof/WellFormed.lean ====
section
/-! DEFINITION. Well-formedness. The types of `Instr` already hold every operand to its range, and there is
no reserved encoding (30_encoding.md R92), so what can be ill-formed is a byte sequence: R81 says which
sequences are encoded forms, R89 which sequence is the illegal shape, R186 (42_invariants.md) which encoded
forms are canonical. An instruction is well-formed when its bytes have its row's shape. -/

namespace Sys2Proof

open Machine

/-- R81: an encoded form has 1 to 10 bytes, continuation bit 1 in every byte but the last, and
continuation bit 0 in the last. -/
def isEncodedForm (bs : List Byte) : Bool :=
  decide (bs.length ≤ 10) && bs.dropLast.all contBit && bs.getLast?.any (fun b => !contBit b)

/-- R89: the illegal shape, ten bytes that all have continuation bit 1. -/
def isTooLong (bs : List Byte) : Bool := bs.length == 10 && bs.all contBit

/-- R186: an encoded form is canonical when it has one byte, or its last byte has a non-zero payload
and, if it has ten bytes, the tenth is `0x01`. -/
def isCanonical (bs : List Byte) : Bool :=
  isEncodedForm bs &&
    (bs.length == 1 ||
      (bs.getLast?.any (fun b => payload b != 0#7) && (bs.length != 10 || bs.getLast? == some 0x01#8)))

/-- The bytes of a row of this kind have this shape: none for an operation (R87), an encoded form of `k`
bytes (R81), or the illegal shape (R89). -/
def RowKind.holds : RowKind → List Byte → Bool
  | .operation, bs => bs.isEmpty
  | .form k, bs => isEncodedForm bs && bs.length == k
  | .tooLong, bs => isTooLong bs

/-- The instruction's bytes have the shape of its row. -/
def Instr.wellFormed (i : Instr) : Bool := i.kind.holds (Sys2Proof.encode i)

end Sys2Proof
end

