-- ==== Sys2Proof/Safety.lean ====
section
/-! DEFINITION. What claims about runs are stated in: the bounded run, the invariant of both blocks, when the model
is adequate, the two
blocks' own parts of the state, and the caller's inputs at a clock edge. -/

namespace Sys2Proof.Machine

/-- `k` steps of the machine, from `s`. -/
def runSteps (k : Nat) (s : State) : Host.Outcome State Fault Refusal := Sys2Proof.core.run k s

/-! ## The invariant -/

/-- The `enc.wr` events since the last `enc.cmd` (70_reset_and_hazards.md R245). -/
def writesSinceCmd (tr : List EncEvent) : Nat :=
  tr.foldl (fun n ev => match ev with
    | .cmd _ => 0
    | .wr _ => n + 1
    | .wrfail _ => n
    | .res _ => n) 0

/-- The `dec.rd` events since the last `dec.start` (R245). -/
def readsSinceStart (tr : List DecEvent) : Nat :=
  tr.foldl (fun n ev => match ev with
    | .start => 0
    | .rd _ => n + 1
    | .rdfail _ => n
    | .res _ => n) 0

/-- The encoder's state agrees with the events seen: the bytes written since `enc.cmd(v)` are the first bytes of
`Enc(v)`, and the remaining value is `v` shifted once for each (10_state.md R23, 40_encoder.md R116, R117). -/
def EncOk (st : EncState) (tr : List EncEvent) : Prop :=
  match st with
  | .idle => True
  | .emit rem => ∃ (v : U64) (k : Nat) (before : List EncEvent), k < encLen v ∧ rem = v >>> (7 * k) ∧
      tr = before ++ .cmd v :: ((encBytes v).take k).map EncEvent.wr
  | .done => ∃ (v : U64) (before : List EncEvent), tr = before ++ .cmd v :: (encBytes v).map EncEvent.wr
  | .failed e => ∃ (v : U64) (k : Nat) (before : List EncEvent), k < encLen v ∧
      tr = before ++ .cmd v :: (((encBytes v).take k).map EncEvent.wr ++ [.wrfail e])

/-- The decoder's state agrees with the events seen: it is what `Dec` makes of the bytes consumed since
`dec.start` (10_state.md R24 to R26, 41_decoder.md R149, R152). -/
def DecOk (st : DecState) (tr : List DecEvent) : Prop :=
  match st with
  | .idle => True
  | .reading n acc => ∃ (bs : List Byte) (before : List DecEvent), bs.length = n.val ∧ (∀ b ∈ bs, contBit b =
      true) ∧
      acc = accFrom 0 0#64 bs ∧ tr = before ++ .start :: bs.map DecEvent.rd
  | .done v => ∃ (bs : List Byte) (before : List DecEvent), decBytes bs = .accept v bs.length ∧
      tr = before ++ .start :: bs.map DecEvent.rd
  | .failed .tooLong => ∃ (bs : List Byte) (before : List DecEvent), bs.length = 10 ∧ (∀ b ∈ bs, contBit b =
      true) ∧
      tr = before ++ .start :: bs.map DecEvent.rd
  | .failed (.io e) => ∃ (bs : List Byte) (before : List DecEvent), bs.length ≤ 9 ∧ (∀ b ∈ bs, contBit b =
      true) ∧
      tr = before ++ .start :: (bs.map DecEvent.rd ++ [.rdfail e])

/-- The invariant: both blocks agree with what was seen of them, and no operation made more than ten accesses
that moved a byte (42_invariants.md R182, R245). -/
def State.Inv (s : State) : Prop :=
  EncOk s.enc s.encTrace ∧ DecOk s.dec s.decTrace ∧
    writesSinceCmd s.encTrace ≤ 10 ∧ readsSinceStart s.decTrace ≤ 10

/-! ## When the model is adequate (42_invariants.md R189) -/

/-- R180, I1: `Dec(Enc(v) ++ t) = Accept(v, Len(v))`; and a DECODE started, at a source that delivers without failure
the bytes a completed ENCODE of `v` wrote, ends in `Done` with `v`, past exactly those bytes. -/
def RoundTrip : Prop :=
  (∀ (v : U64) (t : List Byte), decBytes (encBytes v ++ t) = .accept v (encLen v)) ∧
  ∀ (v : U64) (s s' u : State) (written : List Byte) (more : List SrcAnswer), s.enc = .idle →
    exec (.encode v) s = .next s' → s'.enc = .done → s'.sunk = s.sunk ++ written →
    u.dec = .idle → u.sourceAnswers = written.map SrcAnswer.byte ++ more →
    ∃ u', exec .decode u = .next u' ∧ u'.dec = .done v ∧
      u'.source = pastAnswers SrcDrive.answer written.length u.source

/-- R181, I2: the encoding of `v` has `Len(v)` bytes, and the last of several is not `0x00`: its payload is not zero. -/
def Minimality : Prop :=
  ∀ v : U64, (encBytes v).length = encLen v ∧
    (1 < encLen v → ∃ b, (encBytes v).getLast? = some b ∧ b ≠ 0x00#8 ∧ payload b ≠ 0#7)

/-- R182, I3: an encoding has 1 to 10 bytes, and no DECODE consumes more than 10. -/
def TenByteBound : Prop :=
  (∀ v : U64, 1 ≤ (encBytes v).length ∧ (encBytes v).length ≤ 10) ∧
  ∀ (s t : State) (k : Nat), s.Inv → runSteps k s = .next t → readsSinceStart t.decTrace ≤ 10

/-- R183: the encoder's output has length `max(1, ceil(bit_length(v) / 7))`, so one byte for zero. -/
def LengthProperty : Prop :=
  bitLength 0#64 = 0 ∧ (encBytes 0#64).length = 1 ∧
    ∀ v : U64, (encBytes v).length = max 1 ((bitLength v + 6) / 7)

/-- R184: ten continuation bytes are rejected after ten; at most nine and then a terminator are accepted after it. -/
def BoundedDecode : Prop :=
  (∀ s t : List Byte, s.length = 10 → (∀ b ∈ s, contBit b = true) → decBytes (s ++ t) = .reject 10) ∧
  ∀ (s t : List Byte) (b : Byte), s.length ≤ 9 → (∀ c ∈ s, contBit c = true) → contBit b = false →
    ∃ v, decBytes (s ++ [b] ++ t) = .accept v (s.length + 1)

/-- The literal vectors of the source (95_test_vectors.md section 1.1). -/
def literalVectors : List (U64 × List Byte) :=
  [(0#64, [0x00#8]), (1#64, [0x01#8]), (4#64, [0x04#8]), (128#64, [0x80#8, 0x01#8]),
    (173#64, [0xAD#8, 0x01#8]), (1024#64, [0x80#8, 0x08#8]),
    (4294967295#64, [0xFF#8, 0xFF#8, 0xFF#8, 0xFF#8, 0x0F#8])]

/-- R185: each literal vector holds in both directions. -/
def LiteralVectorsHold : Prop :=
  ∀ p ∈ literalVectors, encBytes p.1 = p.2 ∧ decBytes p.2 = .accept p.1 p.2.length

/-- R189: the model is adequate for the source's purposes when R180 to R185 are theorems of it. The six statements
for the provers that formalise those rules give it (`adequate_of_statements`). -/
def Adequate : Prop :=
  RoundTrip ∧ Minimality ∧ TenByteBound ∧ LengthProperty ∧ BoundedDecode ∧ LiteralVectorsHold

/-! ## The two blocks' parts of the state (10_state.md R20) -/

/-- `s` and `t` agree on the encoder and on its stream. -/
def SameEncoder (s t : State) : Prop :=
  s.enc = t.enc ∧ s.sink = t.sink ∧ s.sunk = t.sunk ∧ s.encTrace = t.encTrace

/-- `s` and `t` agree on the decoder and on its stream. -/
def SameDecoder (s t : State) : Prop :=
  s.dec = t.dec ∧ s.source = t.source ∧ s.decTrace = t.decTrace

/-- The results that the decoder has handed over, oldest first. -/
def decResults (tr : List DecEvent) : List DecResult :=
  tr.filterMap fun ev => match ev with
    | .res r => some r
    | .start => none
    | .rd _ => none
    | .rdfail _ => none

/-! ## The caller's inputs at a clock edge -/

/-- The caller offers `v` and takes no result. -/
def cmdEdge (v : U64) : Turn := .env (.edgeEnc ⟨false, true, v, false⟩)

/-- An edge of the encoder's clock at which the caller does nothing. -/
def quietEncEdge : Turn := .env (.edgeEnc ⟨false, false, 0#64, false⟩)

/-- An edge of the encoder's clock at which the caller takes a result if there is one. -/
def takeEncEdge : Turn := .env (.edgeEnc ⟨false, false, 0#64, true⟩)

/-- The caller offers a start and takes no result. -/
def startEdge : Turn := .env (.edgeDec ⟨false, true, false⟩)

/-- An edge of the decoder's clock at which the caller does nothing. -/
def quietDecEdge : Turn := .env (.edgeDec ⟨false, false, false⟩)

/-- An edge of the decoder's clock at which the caller takes a result if there is one. -/
def takeDecEdge : Turn := .env (.edgeDec ⟨false, false, true⟩)

end Sys2Proof.Machine
end

