-- ==== Sys2Proof/Certificates/Slice0/Obligations.lean ====
section
/-! DEFINITION. The statements for the provers, from the numbered rules of spec/. A statement whose basis is
"derived" rests on a decision or an inference that the spec marks as its own, or on a choice of this model; its
docstring names it. Where a next state is written out with `with`, every field not named is unchanged: that is
the instruction's frame. -/

open Sys2Proof Sys2Proof.Machine

/-! ## The wire format -/

/-- R80: every byte has a continuation bit 7 (mask `0x80`) and a payload 6:0 (mask `0x7F`); a byte is the
continuation byte or the terminator byte of its payload. -/
def Obligations.ByteHasContinuationBitAndPayload : Prop :=
  ∀ b : Byte,
    (contBit b = true ↔ b &&& 0x80#8 ≠ 0#8) ∧
    (payload b).toNat = (b &&& 0x7F#8).toNat ∧
    (contBit b = true → b = contByte (payload b)) ∧
    (contBit b = false → b = termByte (payload b)) ∧
    ∀ p : U7, (contByte p).toNat = 1 * 128 + p.toNat ∧ (termByte p).toNat = p.toNat

/-- R81: an encoded form has 1 to 10 bytes; a form of length `k` has continuation bit 1 in bytes 0 to `k - 2` and 0
in byte `k - 1`, so its length is the position of the first byte with continuation bit 0; ten continuation bytes
are not an encoded form. -/
def Obligations.EncodedFormIsContinuationsThenTerminator : Prop :=
  ∀ bs : List Byte,
    (isEncodedForm bs = true ↔
      1 ≤ bs.length ∧ bs.length ≤ 10 ∧
        ∀ i b, bs[i]? = some b → (contBit b = true ↔ i + 1 < bs.length)) ∧
    (isEncodedForm bs = true → bs.findIdx (fun b => !contBit b) + 1 = bs.length) ∧
    (isTooLong bs = true → isEncodedForm bs = false)

/-- 30_encoding.md section 6 of the table and 95_test_vectors.md section 2.8: words written out from the table's
encodings decode to the rows they stand for. -/
def Obligations.TableWordsDecodeToTheirRows : Prop :=
  decodeTableWord 8 0b00000100 = some (.varint1 4#7) ∧
  decodeTableWord 16 0b0000000110101101 = some (.varint2 45#7 1#7) ∧
  decodeTableWord 24 0b001001101000111011100101 = some (.varint3 0x65#7 0x0E#7 0x26#7) ∧
  decodeTableWord 40 0x0FFFFFFFFF = some (.varint5 127#7 127#7 127#7 127#7 15#7) ∧
  decodeTableWord 80 0x03808080808080808080 = some (.varint10 0#7 0#7 0#7 0#7 0#7 0#7 0#7 0#7 0#7 3#7) ∧
  decodeTableWord 80 0xFFFFFFFFFFFFFFFFFFFF =
    some (.toolong 127#7 127#7 127#7 127#7 127#7 127#7 127#7 127#7 127#7 127#7)

/-- Decode and encode agree: the decoder reads back every wire row, with every payload, and leaves the bytes that
follow it. -/
def Obligations.DecodingAnEncodedRowGivesItBack : Prop :=
  ∀ (i : Instr) (rest : List Byte), i.kind ≠ .operation → decode (encode i ++ rest) = .form i rest

/-- The other direction: what the decoder finds is a well-formed wire row, and its bytes with the rest are the
sequence that was read, so no two sequences of the same bytes stand for different rows. -/
def Obligations.EncodingADecodedRowGivesItsBytes : Prop :=
  ∀ (bs : List Byte) (i : Instr) (rest : List Byte), decode bs = .form i rest →
    i.kind ≠ .operation ∧ i.wellFormed = true ∧ encode i ++ rest = bs

/-- 30_encoding.md section 4: a shorter sequence that matches no row is an incomplete form. The decoder rejects
exactly the sequences of fewer than ten bytes that are all continuation bytes, and `Dec` needs more there. -/
def Obligations.DecoderRejectsExactlyIncompleteForms : Prop :=
  ∀ (bs : List Byte) (n : Nat),
    (decode bs = .needMore n ↔ bs.length = n ∧ n < 10 ∧ ∀ b ∈ bs, contBit b = true) ∧
    (decode bs = .needMore n ↔ ∃ m : Fin 10, decBytes bs = .needMore m ∧ m.val = n)

/-- 30_encoding.md section 4: the eleven wire rows are pairwise exclusive and cover every sequence of ten or more
bytes: exactly one matches, and it is the row of the instruction that the decoder finds. -/
def Obligations.ExactlyOneWireRowMatches : Prop :=
  ∀ bs : List Byte, 10 ≤ bs.length →
    ∃ i rest, decode bs = .form i rest ∧ rowOf i ∈ wireRows ∧ (rowOf i).matchesBytes bs = true ∧
      ∀ r ∈ wireRows, r.matchesBytes bs = true → r = rowOf i

/-- 30_encoding.md sections 2 and 4: `Dec` accepts a `VARINTk` row after `k` bytes with the row's value
`trunc_64(sum of payload_i × 2^(7i))`, and rejects the TOOLONG row after ten. The VARINT10 clause (every tenth payload
is accepted, its bits 6:1 are truncated) rests on decision D1 of the spec, log entry 8. -/
def Obligations.DecAcceptsRowsWithTheirValue : Prop :=
  ∀ (i : Instr) (rest : List Byte),
    (∀ k, i.kind = .form k → decBytes (encode i ++ rest) = .accept (rowValue i.payloads) k) ∧
    (i.kind = .tooLong → decBytes (encode i ++ rest) = .reject 10)

/-! ## The canonical encoding -/

/-- R82: byte `i` of the canonical encoding holds value bit `7i + j` in byte bit `j` (the bits above 63, which a
value does not have, are 0), and its bit 7 says whether byte `i + 1` exists. -/
def Obligations.ByteHoldsItsSevenValueBits : Prop :=
  ∀ (v : U64) (i : Nat) (b : Byte), (encBytes v)[i]? = some b →
    (∀ j < 7, b.getLsbD j = v.getLsbD (7 * i + j)) ∧
    (b.getLsbD 7 = true ↔ i + 1 < (encBytes v).length)

/-- R83, R183: `Len(v) = max(1, ceil(bit_length(v) / 7))` with `bit_length(0) = 0`, and the table: `Len(v) = k` for
`2^(7(k-1)) ≤ v < 2^(7k)`, from 0 on for `k = 1`, up to `2^64 - 1` for `k = 10`; the canonical encoding has that
length, so zero encodes to exactly one byte. -/
def Obligations.LengthFormulaGivesTheLengthTable : Prop :=
  ∀ v : U64,
    encLen v = max 1 ((bitLength v + 6) / 7) ∧ bitLength 0#64 = 0 ∧
    (∀ k, bitLength v ≤ k ↔ v.toNat < 2 ^ k) ∧
    1 ≤ encLen v ∧ encLen v ≤ 10 ∧
    (∀ k, 1 ≤ k → k ≤ 10 →
      (encLen v = k ↔ (k = 1 ∨ 2 ^ (7 * (k - 1)) ≤ v.toNat) ∧ v.toNat < 2 ^ (7 * k))) ∧
    (encBytes v).length = encLen v ∧ (encBytes 0#64).length = 1

/-- 30_encoding.md section 2 (the closed form is the spec's own derivation): the recursion of `Enc`, its closed
form, the last byte's payload, and the tenth byte. -/
def Obligations.EncodingRecursionAndClosedForm : Prop :=
  ∀ v : U64,
    (v.toNat < 128 → encBytes v = [termByte (low7 v)]) ∧
    (128 ≤ v.toNat → encBytes v = contByte (low7 v) :: encBytes (v >>> 7)) ∧
    (∀ i < encLen v, (encBytes v)[i]? =
      some (((v >>> (7 * i)) &&& 0x7F#64).setWidth 8 ||| if i + 1 < encLen v then 0x80#8 else 0x00#8)) ∧
    (v ≠ 0#64 → ∃ b, (encBytes v).getLast? = some b ∧ payload b ≠ 0#7) ∧
    (2 ^ 63 ≤ v.toNat → (encBytes v)[9]? = some 0x01#8)

/-- R181, invariant I2: the encoding has `Len(v)` bytes and, if more than one, its last byte is not `0x00` (its
payload is not zero); no accepted byte sequence for `v` is shorter; the decoder does not require it of its input. -/
def Obligations.NoShorterFormDecodesToTheValue : Prop :=
  (∀ v : U64, (encBytes v).length = encLen v ∧
    (1 < encLen v → ∃ b, (encBytes v).getLast? = some b ∧ b ≠ 0x00#8 ∧ payload b ≠ 0#7)) ∧
  (∀ (v : U64) (s : List Byte) (k : Nat), decBytes s = .accept v k → encLen v ≤ k) ∧
  decBytes [0x80#8, 0x00#8] = .accept 0#64 2

/-- R185: the literal vectors of the source (95_test_vectors.md section 1.1) in both directions. -/
def Obligations.LiteralVectorsHoldInBothDirections : Prop :=
  ∀ p ∈ [(0#64, [0x00#8]), (1#64, [0x01#8]), (4#64, [0x04#8]), (128#64, [0x80#8, 0x01#8]),
      (173#64, [0xAD#8, 0x01#8]), (1024#64, [0x80#8, 0x08#8]),
      (4294967295#64, [0xFF#8, 0xFF#8, 0xFF#8, 0xFF#8, 0x0F#8])],
    encBytes p.1 = p.2 ∧ decBytes p.2 = .accept p.1 p.2.length

/-- 42_invariants.md (the spec's own derivation): decoding and encoding again gives the bytes consumed exactly when
they are canonical: one byte, or a last byte with a non-zero payload which, in a form of ten bytes, is `0x01` (decision D1 of the spec,
log entry 8). -/
def Obligations.ReencodingGivesExactlyCanonicalForms : Prop :=
  ∀ (s : List Byte) (v : U64) (k : Nat), decBytes s = .accept v k →
    (encBytes v = s.take k ↔ isCanonical (s.take k) = true)

/-- 42_invariants.md (the spec's own derivation): no encoded form is a proper prefix of another, and none is a
prefix of ten continuation bytes. -/
def Obligations.NoFormIsAPrefixOfAnother : Prop :=
  ∀ f g : List Byte, isEncodedForm f = true → f.isPrefixOf g = true →
    (isEncodedForm g = true → f = g) ∧ isTooLong g = false

/-- 42_invariants.md (the spec's own derivation): a larger value never has a shorter canonical form, and byte by
byte order is not value order. -/
def Obligations.LargerValueIsNeverShorter : Prop :=
  (∀ u v : U64, u.toNat < v.toNat → encLen u ≤ encLen v) ∧
  encBytes 256#64 = [0x80#8, 0x02#8] ∧ encBytes 255#64 = [0xFF#8, 0x01#8]

/-! ## The accumulation -/

/-- 41_decoder.md section 1 (in part the spec's own derivation): below the tenth byte the OR adds the payload at
bits `[7n+6 : 7n]` and changes nothing below, drops nothing, and does not depend on the continuation bit. -/
def Obligations.AccumulateAddsThePayloadAtItsPlace : Prop :=
  ∀ (acc : U64) (n : Fin 10) (b : Byte), acc.toNat < 2 ^ (7 * n.val) →
    7 * n.val ≤ 63 ∧
    (n.val ≤ 8 →
      (accStep acc n b).toNat = acc.toNat + (payload b).toNat * 2 ^ (7 * n.val) ∧
      (accStep acc n b).toNat < 2 ^ (7 * (n.val + 1))) ∧
    accStep acc n (b ^^^ 0x80#8) = accStep acc n b

/-- 41_decoder.md section 2, decision D1 of the spec: of the tenth byte only payload bit 0 reaches the value, as
bit 63; the other payload bits change nothing. -/
def Obligations.TenthByteKeepsOnlyPayloadBitZero : Prop :=
  (∀ (acc : U64) (b : Byte), accStep acc 9 b = acc ||| (BitVec.ofBool (b.getLsbD 0)).setWidth 64 <<< 63) ∧
  ∀ (b : Byte) (c : List Byte), c = List.replicate 9 0x80#8 → contBit b = false →
    decBytes (c ++ [b]) = .accept (if b.getLsbD 0 then 9223372036854775808#64 else 0#64) 10

/-- R184, bounded decode: ten continuation bytes give TooLong after ten; at most nine and then a terminator are
accepted after it; what follows does not matter. -/
def Obligations.TenContinuationsAreTooLongFewerAreNot : Prop :=
  (∀ s t : List Byte, s.length = 10 → (∀ b ∈ s, contBit b = true) → decBytes (s ++ t) = .reject 10) ∧
  ∀ (s t : List Byte) (b : Byte), s.length ≤ 9 → (∀ c ∈ s, contBit c = true) → contBit b = false →
    ∃ v, decBytes (s ++ [b] ++ t) = .accept v (s.length + 1)

/-! ## ENCODE as one piece -/

/-- R111: the byte on offer is `(rem & 0x7F) | 0x80` while higher bits remain (`rem >= 128`, that is
`rem[63:7] != 0`), else `rem`; in `Emit` the port `snk_byte` shows it in every cycle, and it is stable while the
sink makes the encoder wait. -/
def Obligations.OfferedByteIsEncByteOfTheRemainder : Prop :=
  (∀ rem : U64,
    (128 ≤ rem.toNat ↔ rem >>> 7 ≠ 0#64) ∧
    (128 ≤ rem.toNat → encByte rem = contByte (low7 rem) ∧ (encByte rem).setWidth 64 = (rem &&& 0x7F#64) ||| 0x80#64) ∧
    (rem.toNat < 128 → encByte rem = termByte (low7 rem) ∧ (encByte rem).setWidth 64 = rem)) ∧
  ∀ (s : State) (rem : U64), s.enc = .emit rem →
    s.encOut.snkByte = encByte rem ∧
    ∀ (e : EncEdge) (ds : List SnkDrive), e.rst = false → s.sink = .quiet :: ds →
      s.encClock e = { s with sink := ds }

/-- 40_encoder.md sections 1 and 3 (the agreement of the events with `Enc` is the spec's own derivation): when the
sink answers the writes with `Ok`, ENCODE in `Idle` completes: all of `Enc(v)` is
appended to the sink and observed after `enc.cmd(v)`, the sink has given `Len(v)` answers, the phase is `Done`, and
nothing else changes. -/
def Obligations.EncodeWritesAllOfEncAndEndsDone : Prop :=
  ∀ (v : U64) (s : State), s.enc = .idle →
    s.sinkAnswers.take (encLen v) = List.replicate (encLen v) .ok →
    exec (.encode v) s = .next { s with
      enc := .done
      sink := pastAnswers SnkDrive.answer (encLen v) s.sink
      sunk := s.sunk ++ encBytes v
      encTrace := s.encTrace ++ .cmd v :: (encBytes v).map EncEvent.wr }

/-- R209: when write number `k` fails with `e`, the phase becomes `Failed` with `e`, nothing is saved, and the sink
keeps the `k` bytes it accepted, the first of `Enc(v)` and all continuation bytes; no more of the sink's answers
is taken and nothing else changes. No byte is offered then, and the result is offered: `Io(e)`. -/
def Obligations.EncodeFailedWriteKeepsThePrefixAndRaisesIo : Prop :=
  ∀ (v : U64) (s : State) (k : Nat) (e : IoInfo), s.enc = .idle → k < encLen v →
    s.sinkAnswers.take (k + 1) = List.replicate k .ok ++ [.fail e] →
    (∀ b ∈ (encBytes v).take k, contBit b = true) ∧
    ∃ t, t = { s with
        enc := .failed e
        sink := pastAnswers SnkDrive.answer (k + 1) s.sink
        sunk := s.sunk ++ (encBytes v).take k
        encTrace := s.encTrace ++ .cmd v :: (((encBytes v).take k).map EncEvent.wr ++ [.wrfail e]) } ∧
      exec (.encode v) s = .next t ∧
      t.encOut.snkValid = false ∧ t.encOut.resValid = true ∧ t.enc.result = some (.io e)

/-- R119: when the sink falls silent after `k` accepted bytes, the encoder waits in `Emit` with the value shifted
`k` times; it has no result, and any number of further edges at which the sink does not answer leave it so; only
reset ends that. In `Idle` it waits for a value, in `Done` and `Failed` for the caller. -/
def Obligations.EncodeWaitsInEmitForASilentSink : Prop :=
  (∀ (v : U64) (s : State) (k : Nat), s.enc = .idle → k < encLen v →
    s.sinkAnswers = List.replicate k .ok →
    ∃ t, t = { s with
        enc := .emit (v >>> (7 * k))
        sink := []
        sunk := s.sunk ++ (encBytes v).take k
        encTrace := s.encTrace ++ .cmd v :: ((encBytes v).take k).map EncEvent.wr } ∧
      exec (.encode v) s = .next t ∧ t.enc.result = none ∧ t.encOut.resValid = false ∧
      (∀ (m : Nat) (e : EncEdge), e.rst = false →
        runSteps m { t with agenda := List.replicate m (.env (.edgeEnc e)) } =
          .next { t with agenda := [], tick := t.tick + m }) ∧
      ∀ e : EncEdge, e.rst = true → (t.encClock e).enc = .idle) ∧
  ∀ (s : State) (e : EncEdge), e.rst = false →
    (s.enc = .idle → e.cmdValid = false → s.encClock e = s) ∧
    (s.enc.result.isSome = true → e.resReady = false → s.encClock e = s)

/-- R116: whatever the sink does, an ENCODE taken in `Idle` proceeds by its events only; the bytes it writes are a
prefix of `Enc(v)`, as long as the sink's leading acceptances and at most `Len(v)`: it depends on the sink alone.
Its only error is IoError, and nothing of the decoder, of its stream, of the agenda or of the counter changes. -/
def Obligations.EncodeAlwaysWritesAPrefixOfEnc : Prop :=
  ∀ (v : U64) (s : State), s.enc = .idle →
    ∃ t k evs, exec (.encode v) s = .next t ∧
      k = min (encLen v) (s.sinkAnswers.takeWhile (fun a => decide (a = .ok))).length ∧
      t.sunk = s.sunk ++ (encBytes v).take k ∧
      t.encTrace = s.encTrace ++ .cmd v :: (((encBytes v).take k).map EncEvent.wr ++ evs) ∧
      (t.enc = .done ∧ k = encLen v ∧ evs = [] ∨
        (∃ e, t.enc = .failed e ∧ k < encLen v ∧ s.sinkAnswers[k]? = some (.fail e) ∧ evs = [.wrfail e]) ∨
        t.enc = .emit (v >>> (7 * k)) ∧ k < encLen v ∧ s.sinkAnswers[k]? = none ∧ evs = []) ∧
      t.dec = s.dec ∧ t.source = s.source ∧ t.decTrace = s.decTrace ∧ t.agenda = s.agenda ∧ t.tick = s.tick

/-! ## DECODE as one piece -/

/-- 41_decoder.md sections 1 and 3 (the agreement of the events with `Dec` is the spec's own derivation): when the
bytes the source delivers begin with a form that `Dec` accepts, DECODE in `Idle` completes: exactly its `k`
bytes are consumed, the phase is `Done` with its value, and nothing else changes. That `Dec` accepts every tenth byte
below `0x80` is decision D1 of the spec, log entry 8. -/
def Obligations.DecodeReadsTheFormAndEndsDone : Prop :=
  ∀ (s : State) (v : U64) (k : Nat), s.dec = .idle → decBytes s.frontBytes = .accept v k →
    exec .decode s = .next { s with
      dec := .done v
      source := pastAnswers SrcDrive.answer k s.source
      decTrace := s.decTrace ++ .start :: (s.frontBytes.take k).map DecEvent.rd }

/-- R89, R201: when the source delivers ten continuation bytes, DECODE in `Idle` consumes exactly those ten,
whatever their payloads, and ends in `Failed` with TooLong; nothing else changes, and the eleventh answer is not
taken. A DECODE that ends with TooLong had those ten: no other shape is illegal. -/
def Obligations.DecodeOfTenContinuationsRaisesTooLong : Prop :=
  (∀ (s : State) (bs : List Byte) (more : List SrcAnswer), s.dec = .idle → bs.length = 10 →
    (∀ b ∈ bs, contBit b = true) → s.sourceAnswers = bs.map SrcAnswer.byte ++ more →
    exec .decode s = .next { s with
      dec := .failed .tooLong
      source := pastAnswers SrcDrive.answer 10 s.source
      decTrace := s.decTrace ++ .start :: bs.map DecEvent.rd }) ∧
  ∀ s t : State, s.dec = .idle → exec .decode s = .next t → t.dec = .failed .tooLong →
    ∃ (bs : List Byte) (more : List SrcAnswer), bs.length = 10 ∧ (∀ b ∈ bs, contBit b = true) ∧
      s.sourceAnswers = bs.map SrcAnswer.byte ++ more

/-- R202: when the source fails with `e` after `n` continuation bytes (0 to 9), DECODE in `Idle` ends in `Failed` with
`Io(e)`, `e` copied and nothing added to it; the `n` bytes stay consumed, the failure consumes none, and nothing
else changes. A DECODE that ends with `Io(e)` was answered so. -/
def Obligations.DecodeFailedReadRaisesIo : Prop :=
  (∀ (s : State) (bs : List Byte) (e : IoInfo) (more : List SrcAnswer), s.dec = .idle → bs.length ≤ 9 →
    (∀ b ∈ bs, contBit b = true) → s.sourceAnswers = bs.map SrcAnswer.byte ++ .fail e :: more →
    exec .decode s = .next { s with
      dec := .failed (.io e)
      source := pastAnswers SrcDrive.answer (bs.length + 1) s.source
      decTrace := s.decTrace ++ .start :: (bs.map DecEvent.rd ++ [.rdfail e]) }) ∧
  ∀ (s t : State) (e : IoInfo), s.dec = .idle → exec .decode s = .next t → t.dec = .failed (.io e) →
    ∃ (bs : List Byte) (more : List SrcAnswer), bs.length ≤ 9 ∧ (∀ b ∈ bs, contBit b = true) ∧
      s.sourceAnswers = bs.map SrcAnswer.byte ++ .fail e :: more

/-- R151: when the source falls silent after `n` continuation bytes, the decoder waits in `Reading(n)` with their
payloads accumulated, and asks for a byte; it has no result, and any number of further edges at which the source
does not answer leave it so; only reset ends that. -/
def Obligations.DecodeWaitsInReadingForASilentSource : Prop :=
  ∀ (s : State) (bs : List Byte) (n : Fin 10), s.dec = .idle → bs.length = n.val →
    (∀ b ∈ bs, contBit b = true) → s.sourceAnswers = bs.map SrcAnswer.byte →
    ∃ t, t = { s with
        dec := .reading n (accFrom 0 0#64 bs)
        source := []
        decTrace := s.decTrace ++ .start :: bs.map DecEvent.rd } ∧
      exec .decode s = .next t ∧ t.dec.result = none ∧ t.decOut.resValid = false ∧ t.decOut.srcReady = true ∧
      (∀ (m : Nat) (e : DecEdge), e.rst = false →
        runSteps m { t with agenda := List.replicate m (.env (.edgeDec e)) } =
          .next { t with agenda := [], tick := t.tick + m }) ∧
      ∀ e : DecEdge, e.rst = true → (t.decClock e).dec = .idle

/-! ## The wire rows -/

/-- 30_encoding.md section 4 (that a wire row is an instruction is this model's choice, log entry 5): in
`Reading(0)` each of the ten rows VARINT1 to VARINT10 completes: its bytes are read one after another, the
phase is `Done` with the row's value, and nothing else changes. The VARINT10 clause (any tenth payload ends in
`Done`, its bits 6:1 are dropped) rests on decision D1 of the spec, log entry 8. -/
def Obligations.VarintRowsEndDoneWithTheirValue : Prop :=
  ∀ s : State, s.dec = .reading 0 0#64 →
    let ends := fun (i : Instr) (v : U64) =>
      exec i s = .next { s with dec := .done v, decTrace := s.decTrace ++ (encode i).map DecEvent.rd }
    (∀ a, ends (.varint1 a) (rowValue [a])) ∧
    (∀ a b, ends (.varint2 a b) (rowValue [a, b])) ∧
    (∀ a b c, ends (.varint3 a b c) (rowValue [a, b, c])) ∧
    (∀ a b c d, ends (.varint4 a b c d) (rowValue [a, b, c, d])) ∧
    (∀ a b c d e, ends (.varint5 a b c d e) (rowValue [a, b, c, d, e])) ∧
    (∀ a b c d e f, ends (.varint6 a b c d e f) (rowValue [a, b, c, d, e, f])) ∧
    (∀ a b c d e f g, ends (.varint7 a b c d e f g) (rowValue [a, b, c, d, e, f, g])) ∧
    (∀ a b c d e f g h, ends (.varint8 a b c d e f g h) (rowValue [a, b, c, d, e, f, g, h])) ∧
    (∀ a b c d e f g h i, ends (.varint9 a b c d e f g h i) (rowValue [a, b, c, d, e, f, g, h, i])) ∧
    (∀ a b c d e f g h i j, ends (.varint10 a b c d e f g h i j) (rowValue [a, b, c, d, e, f, g, h, i, j]))

/-- 30_encoding.md section 5 (that the row is an instruction is log entry 5): in `Reading(0)` the row TOOLONG
completes: its ten bytes are read and the phase is `Failed` with TooLong. -/
def Obligations.ToolongRowEndsFailedAfterTenBytes : Prop :=
  ∀ (s : State) (acc : U64) (a b c d e f g h i j : U7), s.dec = .reading 0 acc →
    exec (.toolong a b c d e f g h i j) s = .next { s with
      dec := .failed .tooLong
      decTrace := s.decTrace ++ (encode (.toolong a b c d e f g h i j)).map DecEvent.rd }

/-- 41_decoder.md section 2 (log entry 5): a wire row that arrives when the decoder is in `Reading(n)` for any `n`
is read on from there, as `DecAt` says, and what it does not consume stays at the front of the source. That a
terminator at index 9 ends in `Done` is decision D1 of the spec, log entry 8. -/
def Obligations.WireRowIsReadOnFromAnyIndex : Prop :=
  ∀ (i : Instr) (s : State) (n : Fin 10) (acc : U64), i.kind ≠ .operation → s.dec = .reading n acc →
    (∃ v k, decAt n acc (encode i) = .accept v (n.val + k) ∧ k ≤ (encode i).length ∧
      exec i s = .next { s with
        dec := .done v
        source := ((encode i).drop k).map SrcDrive.byte ++ s.source
        decTrace := s.decTrace ++ ((encode i).take k).map DecEvent.rd }) ∨
    (∃ k, decAt n acc (encode i) = .reject 10 ∧ k + n.val = 10 ∧
      exec i s = .next { s with
        dec := .failed .tooLong
        source := ((encode i).drop k).map SrcDrive.byte ++ s.source
        decTrace := s.decTrace ++ ((encode i).take k).map DecEvent.rd })

/-- 10_state.md section 5 (log entry 5): in `Idle`, `Done` and `Failed` the decoder takes no byte: a wire row that
arrives then stays at the front of the source, and nothing else changes. -/
def Obligations.WireRowWaitsOutsideReading : Prop :=
  ∀ (i : Instr) (s : State), i.kind ≠ .operation →
    (s.dec = .idle ∨ (∃ v, s.dec = .done v) ∨ ∃ err, s.dec = .failed err) →
    exec i s = .next { s with source := (encode i).map SrcDrive.byte ++ s.source }

/-- The frame of DECODE and of the wire rows: the encoder, its stream, its trace, the agenda and the counter are
unchanged, and the decoder's trace only grows. -/
def Obligations.DecodeAndWireRowsLeaveTheEncoderAlone : Prop :=
  ∀ (i : Instr) (s t : State), (∀ v, i ≠ .encode v) → exec i s = .next t →
    t.enc = s.enc ∧ t.sink = s.sink ∧ t.sunk = s.sunk ∧ t.encTrace = s.encTrace ∧ t.agenda = s.agenda ∧
      t.tick = s.tick ∧ ∃ evs, t.decTrace = s.decTrace ++ evs

/-! ## Starts that are not taken, and the state each operation starts from -/

/-- 40_encoder.md section 2, 41_decoder.md section 2 (decisions D5, D16): a value or a start offered while the
block is not in `Idle` is not taken and not remembered: nothing changes. -/
def Obligations.OperationIsNotTakenOutsideIdle : Prop :=
  (∀ (v : U64) (s : State), s.enc ≠ .idle → exec (.encode v) s = .next s) ∧
  (∀ s : State, s.dec ≠ .idle → exec .decode s = .next s) ∧
  (∀ (e : EncEdge) (v : Bool) (w : U64) (s : State), s.enc ≠ .idle →
    s.encClock { e with cmdValid := v, cmdValue := w } = s.encClock e) ∧
  ∀ (e : DecEdge) (v : Bool) (s : State), s.dec ≠ .idle →
    s.decClock { e with startValid := v } = s.decClock e

/-- 70_reset_and_hazards.md section 1: every operation begins from a fixed state that its own start event writes: the
decoder from `Reading` with `n = 0` and `acc = 0`, the encoder from `Emit` with the value. The clauses on clock edges
(an edge in `Idle` with `start_valid` or `cmd_valid` takes the start) rest on decisions D5 and D16 of the spec. -/
def Obligations.OperationsStartFromTheirOwnFixedState : Prop :=
  (∀ s : State, s.dec = .idle → (s.decEvent .start).dec = .reading 0 0#64) ∧
  (∀ (s : State) (v : U64), s.enc = .idle → (s.encEvent (.cmd v)).enc = .emit v) ∧
  (∀ (s : State) (e : DecEdge), s.dec = .idle → e.rst = false → e.startValid = true →
    s.decClock e = { s with dec := .reading 0 0#64, decTrace := s.decTrace ++ [.start] }) ∧
  ∀ (s : State) (e : EncEdge), s.enc = .idle → e.rst = false → e.cmdValid = true →
    s.encClock e = { s with enc := .emit e.cmdValue, encTrace := s.encTrace ++ [.cmd e.cmdValue] }

/-- R21: the outcome of an operation depends only on its own inputs: two machines in `Idle` with the same stream
answers end in the same phase with the same bytes moved, whatever happened before. -/
def Obligations.OutcomeIgnoresEarlierOperations : Prop :=
  (∀ (v : U64) (s t : State), s.enc = .idle → t.enc = .idle → s.sink = t.sink →
    ∃ s' t' bs evs, exec (.encode v) s = .next s' ∧ exec (.encode v) t = .next t' ∧
      s'.enc = t'.enc ∧ s'.sink = t'.sink ∧ s'.sunk = s.sunk ++ bs ∧ t'.sunk = t.sunk ++ bs ∧
      s'.encTrace = s.encTrace ++ evs ∧ t'.encTrace = t.encTrace ++ evs) ∧
  ∀ s t : State, s.dec = .idle → t.dec = .idle → s.source = t.source →
    ∃ s' t' evs, exec .decode s = .next s' ∧ exec .decode t = .next t' ∧
      s'.dec = t'.dec ∧ s'.source = t'.source ∧
      s'.decTrace = s.decTrace ++ evs ∧ t'.decTrace = t.decTrace ++ evs

/-! ## One event at a time: the clock edges -/

/-- R113: in `Emit`, at the event level and at the edge at which the sink accepts and does not fail, the byte
`EncByte(rem)` is written; with `rem >= 128` the encoder stays in `Emit` with the remainder shifted (below `2^57`, one
byte fewer to go of at most ten), else it is `Done`; the examples. An edge at which the sink fails writes nothing
and ends in `Failed`. -/
def Obligations.SinkEdgeWritesOneByteOrFails : Prop :=
  (∀ (s : State) (rem : U64) (e : EncEdge) (ds : List SnkDrive), s.enc = .emit rem → e.rst = false →
    (s.sink = .ready :: ds → s.encClock e = { s with
      enc := if 128 ≤ rem.toNat then .emit (rem >>> 7) else .done
      sink := ds
      sunk := s.sunk ++ [encByte rem]
      encTrace := s.encTrace ++ [.wr (encByte rem)] }) ∧
    ∀ err, s.sink = .fail err :: ds → s.encClock e = { s with
      enc := .failed err
      sink := ds
      encTrace := s.encTrace ++ [.wrfail err] }) ∧
  (∀ rem : U64,
    encFire (.emit rem) (.wr (encByte rem)) = some (if 128 ≤ rem.toNat then .emit (rem >>> 7) else .done) ∧
    (rem >>> 7).toNat < 2 ^ 57 ∧ encLen rem ≤ 10 ∧ (128 ≤ rem.toNat → encLen (rem >>> 7) + 1 = encLen rem)) ∧
  (encByte 127#64 = 0x7F#8 ∧ encFire (.emit 127#64) (.wr 0x7F#8) = some .done) ∧
  (encByte 128#64 = 0x80#8 ∧ encFire (.emit 128#64) (.wr 0x80#8) = some (.emit 1#64)) ∧
  encByte 300#64 = 0xAC#8 ∧ encFire (.emit 300#64) (.wr 0xAC#8) = some (.emit 2#64) ∧
  encByte 2#64 = 0x02#8 ∧ encFire (.emit 2#64) (.wr 0x02#8) = some .done

/-- 41_decoder.md section 2, 10_state.md section 5: in `Reading` an edge at which the source delivers `b` consumes it:
a continuation byte below the cap advances the index by one, a continuation byte at index 9 raises TooLong, a
terminator byte at any index (9 included: decision D1 of the spec, log entry 8) ends in `Done`; an edge at which the source fails, a byte beside it or not, raises
`Io(e)` at any index and consumes no byte (decision D7 of the spec). -/
def Obligations.SourceEdgeConsumesOneByteOrFails : Prop :=
  ∀ (s : State) (n : Fin 10) (acc : U64) (b : Byte) (e : DecEdge) (ds : List SrcDrive),
    s.dec = .reading n acc → e.rst = false →
    (s.source = .byte b :: ds →
      ∃ d, s.decClock e = { s with dec := d, source := ds, decTrace := s.decTrace ++ [.rd b] } ∧
        (contBit b = true → n.val < 9 → ∃ m : Fin 10, m.val = n.val + 1 ∧ d = .reading m (accStep acc n b)) ∧
        (contBit b = true → n.val = 9 → d = .failed .tooLong) ∧
        (contBit b = false → d = .done (accStep acc n b))) ∧
    ∀ err, s.source = .fail err :: ds ∨ s.source = .both b err :: ds →
      s.decClock e = { s with
        dec := .failed (.io err), source := ds, decTrace := s.decTrace ++ [.rdfail err] }

/-- 41_decoder.md section 2, at the event level and at the edge at which the source delivers the byte. A byte with bit 7 set
and `n` at most 8 is consumed, the accumulator takes `AccStep`, the index advances by one; `0x80` only advances
it. A byte with bit 7 clear at any index ends in `Done` with `AccStep`: at index 0 the byte itself, at index 9 only
its bit 0 added; no byte is asked for then. A byte with bit 7 set at index 9 is consumed and ends in `Failed` with
TooLong. The rules' examples. The clause on a terminator at index 9 (accepted, bit 0 alone kept) rests on decision D1
of the spec, log entry 8. -/
def Obligations.ByteEventsMoveTheDecoder : Prop :=
  (∀ (n m : Fin 10) (acc : U64) (b : Byte), m.val = n.val + 1 → b.getLsbD 7 = true →
    decFire (.reading n acc) (.rd b) = some (.reading m (accStep acc n b)) ∧
    accStep acc n 0x80#8 = acc ∧
    ∀ (s : State) (e : DecEdge) (ds : List SrcDrive), s.dec = .reading n acc → e.rst = false →
      s.source = .byte b :: ds →
      s.decClock e = { s with
        dec := .reading m (accStep acc n b), source := ds, decTrace := s.decTrace ++ [.rd b] }) ∧
  (∀ (n : Fin 10) (acc : U64) (b : Byte), b.getLsbD 7 = false →
    decFire (.reading n acc) (.rd b) = some (.done (accStep acc n b)) ∧
    accStep 0#64 0 b = b.setWidth 64 ∧
    accStep acc 9 b = acc ||| (BitVec.ofBool (b.getLsbD 0)).setWidth 64 <<< 63 ∧
    ∀ (s : State) (e : DecEdge) (ds : List SrcDrive), s.dec = .reading n acc → e.rst = false →
      s.source = .byte b :: ds →
      s.decClock e = { s with
        dec := .done (accStep acc n b), source := ds, decTrace := s.decTrace ++ [.rd b] } ∧
      (s.decClock e).decOut.srcReady = false) ∧
  (∀ (acc : U64) (b : Byte), b.getLsbD 7 = true →
    decFire (.reading 9 acc) (.rd b) = some (.failed .tooLong) ∧
    ∀ (s : State) (e : DecEdge) (ds : List SrcDrive), s.dec = .reading 9 acc → e.rst = false →
      s.source = .byte b :: ds →
      s.decClock e = { s with
        dec := .failed .tooLong, source := ds, decTrace := s.decTrace ++ [.rd b] }) ∧
  decFire (.reading 0 0#64) (.rd 0xAD#8) = some (.reading 1 0x2D#64) ∧
  decFire (.reading 1 0x2D#64) (.rd 0x01#8) = some (.done 173#64) ∧
  (List.replicate 10 (DecEvent.rd 0xFF#8)).foldlM decFire (.reading 0 0#64) = some (.failed .tooLong)

/-- 60_exceptions.md section 3 (with decision D7 of the spec): at index 9 a failed read gives Io, a terminator gives `Done` (decision D1, log entry 8), a
continuation byte gives TooLong; a failure beside a byte or an acceptance at one edge wins, and the byte does not
move. -/
def Obligations.FailureThenContinuationThenIndexIsTheOrder : Prop :=
  (∀ (acc : U64) (b : Byte) (e : IoInfo),
    decFire (.reading 9 acc) (.rdfail e) = some (.failed (.io e)) ∧
    (contBit b = false → decFire (.reading 9 acc) (.rd b) = some (.done (accStep acc 9 b))) ∧
    (contBit b = true → decFire (.reading 9 acc) (.rd b) = some (.failed .tooLong))) ∧
  (∀ (v : Bool) (b : Byte) (e : IoInfo), (SrcDrive.ofPins v b true e).answer = some (.fail e)) ∧
  (∀ (r : Bool) (e : IoInfo), (SnkDrive.ofPins r true e).answer = some (.fail e)) ∧
  (∀ (b : Byte) (e : IoInfo), (SrcDrive.ofPins true b false e).answer = some (.byte b) ∧
    (SrcDrive.ofPins false b false e).answer = none) ∧
  ∀ e : IoInfo, (SnkDrive.ofPins true false e).answer = some .ok ∧ (SnkDrive.ofPins false false e).answer = none

/-- R200: there are exactly two error kinds, and each is raised by its one event and by nothing else. -/
def Obligations.EachErrorIsRaisedByItsEventOnly : Prop :=
  (∀ err : DecodeError, err = .tooLong ∨ ∃ e, err = .io e) ∧
  (∀ st ev, decFire st ev = some (.failed .tooLong) ↔
    ∃ acc b, st = .reading 9 acc ∧ ev = .rd b ∧ b.getLsbD 7 = true) ∧
  (∀ st ev e, decFire st ev = some (.failed (.io e)) ↔ ∃ n acc, st = .reading n acc ∧ ev = .rdfail e) ∧
  ∀ st ev e, encFire st ev = some (.failed e) ↔ ∃ rem, st = .emit rem ∧ ev = .wrfail e

/-- 40_encoder.md section 2, 41_decoder.md section 2, 60_exceptions.md section 5 (decision D16 of the spec): a result is
held until the caller takes it; taking it is observed, goes to `Idle` and restores nothing. -/
def Obligations.ResultIsHeldUntilTakenThenIdle : Prop :=
  (∀ (s : State) (r : EncResult), s.enc.result = some r →
    s.takeEnc = { s with enc := .idle, encTrace := s.encTrace ++ [.res r] } ∧
    ∀ e : EncEdge, e.rst = false → s.encClock e = if e.resReady then s.takeEnc else s) ∧
  ∀ (s : State) (r : DecResult), s.dec.result = some r →
    s.takeDec = { s with dec := .idle, decTrace := s.decTrace ++ [.res r] } ∧
    ∀ e : DecEdge, e.rst = false → s.decClock e = if e.resReady then s.takeDec else s

/-- 70_reset_and_hazards.md section 1 (decision D4 of the spec): an edge with `rst` = 1 forces `Idle` from any state and
wins over every other input; no event is observed, and what was written or consumed stays so. -/
def Obligations.ResetForcesIdleAndNothingElse : Prop :=
  (∀ (s : State) (e : EncEdge), e.rst = true → s.encClock e = { s with enc := .idle }) ∧
  ∀ (s : State) (e : DecEdge), e.rst = true → s.decClock e = { s with dec := .idle }

/-- 10_state.md section 6 (decision D4 of the spec): after reset both phases are `Idle`, so no data field has a value;
`cmd_ready` and `start_ready` are 1, and every valid output and `src_ready` are 0. -/
def Obligations.ResetLeavesBothBlocksIdle : Prop :=
  State.reset.enc = .idle ∧ State.reset.dec = .idle ∧
  State.reset.encOut.cmdReady = true ∧ State.reset.encOut.snkValid = false ∧
  State.reset.encOut.resValid = false ∧
  State.reset.decOut.startReady = true ∧ State.reset.decOut.srcReady = false ∧
  State.reset.decOut.resValid = false

/-- 10_state.md section 5, 60_exceptions.md section 1 (decisions D3, D5, D6 of the spec): the outputs are functions of
the phase: which port can fire, the status codes 0, 1 and 2, and the value or the information beside them. -/
def Obligations.OutputsShowThePhaseAndTheOutcome : Prop :=
  (∀ s : State,
    (s.encOut.cmdReady = true ↔ s.enc = .idle) ∧
    (s.encOut.snkValid = true ↔ ∃ rem, s.enc = .emit rem) ∧
    (s.encOut.resValid = true ↔ s.enc = .done ∨ ∃ e, s.enc = .failed e) ∧
    (s.enc = .done → s.encOut.resStatus = 0#2) ∧
    (∀ e, s.enc = .failed e → s.encOut.resStatus = 2#2 ∧ s.encOut.resInfo = e)) ∧
  ∀ s : State,
    (s.decOut.startReady = true ↔ s.dec = .idle) ∧
    (s.decOut.srcReady = true ↔ ∃ n acc, s.dec = .reading n acc) ∧
    (s.decOut.resValid = true ↔ (∃ v, s.dec = .done v) ∨ ∃ err, s.dec = .failed err) ∧
    (∀ v, s.dec = .done v → s.decOut.resStatus = 0#2 ∧ s.decOut.resValue = v) ∧
    (s.dec = .failed .tooLong → s.decOut.resStatus = 1#2) ∧
    ∀ e, s.dec = .failed (.io e) → s.decOut.resStatus = 2#2 ∧ s.decOut.resInfo = e

/-! ## The step -/

/-- A step runs the wire row that it decodes (the fetch is this model's, log entry 5): when the decoder is reading
and the bytes at the front of its source decode to `i`, a step whose turn is the source's is `exec i` after the
turn is taken off the agenda, the counter has advanced and the source has moved past the row's bytes with the waits
before and between them (log entry 22). -/
def Obligations.StepRunsTheDecodedWireRow : Prop :=
  ∀ (s : State) (n : Fin 10) (acc : U64) (i : Instr) (rest : List Byte) (turns : List Turn),
    s.dec = .reading n acc → s.agenda = .wire :: turns → decode s.frontBytes = .form i rest →
    i.wellFormed = true →
    step s = exec i { s with
      agenda := turns
      tick := s.tick + 1
      source := pastAnswers SrcDrive.answer (encode i).length s.source }

/-- A step whose turn is a call is `exec` of the operation after the turn is taken off the agenda and the counter
has advanced (log entry 3); a step without a turn only advances the counter. -/
def Obligations.StepRunsTheCalledOperation : Prop :=
  (∀ (s : State) (v : U64) (turns : List Turn), s.agenda = .encode v :: turns →
    step s = exec (.encode v) { s with agenda := turns, tick := s.tick + 1 }) ∧
  (∀ (s : State) (turns : List Turn), s.agenda = .decode :: turns →
    step s = exec .decode { s with agenda := turns, tick := s.tick + 1 }) ∧
  (∀ (s : State) (t : EnvTurn) (turns : List Turn), s.agenda = .env t :: turns →
    step s = .next (State.envTurn { s with agenda := turns, tick := s.tick + 1 } t)) ∧
  ∀ s : State, s.agenda = [] → step s = .next { s with tick := s.tick + 1 }

/-- 20_memory.md sections 1 and 3: what was written is never taken back and what was observed stays observed: from every
state a step only appends to the ByteSink's bytes and to the two traces, and one turn changes one block at most. -/
def Obligations.WrittenBytesAndEventsAreNeverTakenBack : Prop :=
  ∀ s t : State, step s = .next t →
    (∃ bs, t.sunk = s.sunk ++ bs) ∧ (∃ evs, t.encTrace = s.encTrace ++ evs) ∧
      (∃ evs, t.decTrace = s.decTrace ++ evs) ∧ (SameEncoder s t ∨ SameDecoder s t)

/-- 93_implementation_defined.md, end of part 1: every input byte, every value and every stream answer has a defined
outcome, so every instruction and every step answers a next state from every state. -/
def Obligations.EveryInstructionAndStepAnswersANextState : Prop :=
  (∀ (i : Instr) (s : State), ∃ t, exec i s = .next t) ∧ ∀ s : State, ∃ t, step s = .next t

/-- The invariant is kept by every step from every state that has it: the bytes written since `enc.cmd(v)` are the
first bytes of `Enc(v)` and the remainder is `v` shifted once for each; the decoder's state is what `Dec` makes
of the bytes consumed since `dec.start`; at most ten bytes move in an operation. -/
def Obligations.StepKeepsBlocksInAgreementWithTheirTraces : Prop :=
  ∀ s t : State, s.Inv → step s = .next t → t.Inv

/-- The invariant holds after reset. -/
def Obligations.ResetHasBlocksInAgreementWithTheirTraces : Prop :=
  State.reset.Inv

/-- 10_state.md section 3 (the spec's own derivation): in `Reading` with index `n`, bits `[63:7n]` of the
accumulator are 0. -/
def Obligations.AccumulatorHasNoBitsAboveItsIndex : Prop :=
  ∀ (s : State) (n : Fin 10) (acc : U64), s.Inv → s.dec = .reading n acc → acc.toNat < 2 ^ (7 * n.val)

/-- 10_state.md section 1 (two blocks: decision D2 of the spec): they share no state and no event: over any number of steps what happens to the encoder depends on
the encoder's part and the agenda alone, and what happens to the decoder on the decoder's. -/
def Obligations.BlocksDoNotInfluenceEachOther : Prop :=
  ∀ (k : Nat) (s t s' t' : State), s.agenda = t.agenda →
    runSteps k s = .next s' → runSteps k t = .next t' →
    (SameEncoder s t → SameEncoder s' t') ∧ (SameDecoder s t → SameDecoder s' t')

/-- 40_encoder.md sections 1 and 3 (signal level: decisions D3, D5 of the spec): the clock edges and the operation as
one piece agree: the edge that takes the value and one quiet edge for each of the sink's answers give the state
that ENCODE gives. -/
def Obligations.EncoderEdgesAgreeWithTheOperation : Prop :=
  ∀ (v : U64) (s : State), s.enc = .idle →
    ∃ t, exec (.encode v) s = .next t ∧
      runSteps (s.sink.length + 1)
          { s with agenda := cmdEdge v :: List.replicate s.sink.length quietEncEdge ++ s.agenda } =
        .next { t with tick := s.tick + (s.sink.length + 1) }

/-- 41_decoder.md sections 1 and 3 (signal level: decisions D3, D5 of the spec): the clock edges and the operation as
one piece agree for DECODE. -/
def Obligations.DecoderEdgesAgreeWithTheOperation : Prop :=
  ∀ s : State, s.dec = .idle →
    ∃ t, exec .decode s = .next t ∧
      runSteps (s.source.length + 1)
          { s with agenda := startEdge :: List.replicate s.source.length quietDecEdge ++ s.agenda } =
        .next { t with tick := s.tick + (s.source.length + 1) }

/-- 70_reset_and_hazards.md section 4 (decisions D3, D15 of the spec): with an always-ready sink and an always-ready
caller an ENCODE of `v` takes `1 + Len(v) + 1` edges, at most 12: after `1 + j` edges, `j < Len(v)`, it is in
`Emit`; one edge before the last it is `Done`; then it is `Idle` with all bytes written. -/
def Obligations.EncodeTakesLenPlusTwoEdges : Prop :=
  ∀ (v : U64) (s : State) (ds : List SnkDrive) (turns : List Turn), s.enc = .idle →
    s.sink = List.replicate (encLen v) .ready ++ ds →
    s.agenda = cmdEdge v :: List.replicate (encLen v + 1) takeEncEdge ++ turns →
    1 + encLen v + 1 ≤ 12 ∧
    (∀ j < encLen v, ∃ t, runSteps (1 + j) s = .next t ∧ t.enc = .emit (v >>> (7 * j))) ∧
    (∃ t, runSteps (1 + encLen v) s = .next t ∧ t.enc = .done) ∧
    runSteps (1 + encLen v + 1) s = .next { s with
      sink := ds
      sunk := s.sunk ++ encBytes v
      encTrace := s.encTrace ++ .cmd v :: ((encBytes v).map EncEvent.wr ++ [.res .ok])
      agenda := turns
      tick := s.tick + (1 + encLen v + 1) }

/-- 70_reset_and_hazards.md section 4 (the spec's own derivation): every operation whose stream answers each access
and whose caller takes the result ends: from every state at most eleven edges lead each block to `Idle`. -/
def Obligations.AnsweredOperationsEndWithinElevenEdges : Prop :=
  (∀ (s : State) (ds : List SnkDrive), ds.length = 10 → (∀ d ∈ ds, d.answer.isSome = true) →
    ∃ t, runSteps 11 { s with sink := ds, agenda := List.replicate 11 takeEncEdge } = .next t ∧ t.enc = .idle) ∧
  ∀ (s : State) (ds : List SrcDrive), ds.length = 10 → (∀ d ∈ ds, d.answer.isSome = true) →
    ∃ t, runSteps 11 { s with source := ds, agenda := List.replicate 11 takeDecEdge } = .next t ∧ t.dec = .idle

/-! ## Round trip -/

/-- R180, invariant I1: for every `v` and every `t`, `Dec(Enc(v) ++ t) = Accept(v, Len(v))`; and if a source
delivers, without failure, the bytes that a completed ENCODE of `v` wrote, a DECODE started at the first of them
ends in `Done` with value `v`, having consumed exactly those bytes. -/
def Obligations.DecodingWhatEncodeWroteGivesTheValue : Prop :=
  (∀ (v : U64) (t : List Byte), decBytes (encBytes v ++ t) = .accept v (encLen v)) ∧
  ∀ (v : U64) (s s' u : State) (written : List Byte) (more : List SrcAnswer), s.enc = .idle →
    exec (.encode v) s = .next s' → s'.enc = .done → s'.sunk = s.sunk ++ written →
    u.dec = .idle → u.sourceAnswers = written.map SrcAnswer.byte ++ more →
    exec .decode u = .next { u with
      dec := .done v
      source := pastAnswers SrcDrive.answer written.length u.source
      decTrace := u.decTrace ++ .start :: written.map DecEvent.rd }

/-- R182, invariant I3: the encoding of every value has 1 to 10 bytes; and the decoder never consumes more than ten
bytes in one operation: from every state with the invariant, at most ten since the operation's start. -/
def Obligations.NoOperationMovesMoreThanTenBytes : Prop :=
  (∀ v : U64, 1 ≤ (encBytes v).length ∧ (encBytes v).length ≤ 10) ∧
  ∀ (s t : State) (k : Nat), s.Inv → runSteps k s = .next t →
    readsSinceStart t.decTrace ≤ 10 ∧ writesSinceCmd t.encTrace ≤ 10

/-- 42_invariants.md (the spec's own derivation): the results of several ENCODEs written one after another are read
back, value by value and in order, by the same number of DECODEs, and exactly their bytes are consumed. -/
def Obligations.SuccessiveDecodesReadBackSuccessiveEncodes : Prop :=
  ∀ (vs : List U64) (s : State) (ds : List SrcDrive) (turns : List Turn), s.dec = .idle →
    s.source = (vs.flatMap encBytes).map SrcDrive.byte ++ ds →
    s.agenda = vs.flatMap (fun _ => [.decode, .env .takeDec]) ++ turns →
    ∃ t, runSteps (2 * vs.length) s = .next t ∧ t.dec = .idle ∧ t.source = ds ∧ t.agenda = turns ∧
      decResults t.decTrace = decResults s.decTrace ++ vs.map DecResult.ok
end

