-- ==== Sys2Proof/Laws/Adequacy.lean ====
section
/-! SUPPORT. The statements of R180 to R185 make the model adequate (42_invariants.md R189). -/

namespace Sys2Proof.Machine

/-- What is left to prove for `Adequate` is the six statements that formalise R180 to R185. -/
theorem adequate_of_statements
    (roundTrip : Obligations.DecodingWhatEncodeWroteGivesTheValue)
    (minimal : Obligations.NoShorterFormDecodesToTheValue)
    (bound : Obligations.NoOperationMovesMoreThanTenBytes)
    (length : Obligations.LengthFormulaGivesTheLengthTable)
    (bounded : Obligations.TenContinuationsAreTooLongFewerAreNot)
    (vectors : Obligations.LiteralVectorsHoldInBothDirections) : Adequate := by
  refine ⟨⟨roundTrip.1, fun v s s' u written more hs he hd hw hu ha => ?_⟩, minimal.1, ⟨bound.1, fun s t k hs hr => ?_⟩,
    ⟨(length 0#64).2.1, ?_, fun v => ?_⟩, bounded, vectors⟩
  · exact ⟨_, roundTrip.2 v s s' u written more hs he hd hw hu ha, rfl, rfl⟩
  · exact (bound.2 s t k hs hr).1
  · obtain ⟨-, -, -, -, -, -, -, h⟩ := length 0#64
    exact h
  · obtain ⟨h, -, -, -, -, -, h', -⟩ := length v
    exact h'.trans h

end Sys2Proof.Machine
end

