-- ==== Sys2Proof/Laws/Bits.lean ====
section
/-! SUPPORT. The two fields of a byte and the truncation, as arithmetic on natural numbers: later proofs use
these and do not unfold the bit fields. -/

namespace Sys2Proof.Machine

theorem contBit_iff (b : Byte) : contBit b = true ↔ 128 ≤ b.toNat := by
  have h := b.isLt
  unfold contBit
  rw [BitVec.getLsbD, Nat.testBit_eq_decide_div_mod_eq]
  simp only [decide_eq_true_eq]
  omega

theorem contBit_eq_false_iff (b : Byte) : contBit b = false ↔ b.toNat < 128 := by
  rw [← Bool.not_eq_true, contBit_iff]; omega

@[simp] theorem payload_toNat (b : Byte) : (payload b).toNat = b.toNat % 128 := by
  simp [payload]

@[simp] theorem low7_toNat (v : U64) : (low7 v).toNat = v.toNat % 128 := by
  simp [low7]

@[simp] theorem contByte_toNat (p : U7) : (contByte p).toNat = 128 + p.toNat := by
  have h := p.isLt
  simp only [contByte, BitVec.toNat_append, BitVec.toNat_ofNat]
  rw [← Nat.shiftLeft_add_eq_or_of_lt h]
  rfl

@[simp] theorem termByte_toNat (p : U7) : (termByte p).toNat = p.toNat := by
  rw [termByte, BitVec.toNat_append]; simp

@[simp] theorem contBit_contByte (p : U7) : contBit (contByte p) = true := by
  rw [contBit_iff, contByte_toNat]; omega

@[simp] theorem contBit_termByte (p : U7) : contBit (termByte p) = false := by
  have h := p.isLt
  rw [contBit_eq_false_iff, termByte_toNat]; omega

@[simp] theorem payload_contByte (p : U7) : payload (contByte p) = p := by
  have h := p.isLt
  apply BitVec.eq_of_toNat_eq
  rw [payload_toNat, contByte_toNat]; omega

@[simp] theorem payload_termByte (p : U7) : payload (termByte p) = p := by
  have h := p.isLt
  apply BitVec.eq_of_toNat_eq
  rw [payload_toNat, termByte_toNat]; omega

/-- A byte with continuation bit 1 is the continuation byte of its payload. -/
theorem contByte_payload {b : Byte} (h : contBit b = true) : contByte (payload b) = b := by
  have hb := b.isLt
  rw [contBit_iff] at h
  apply BitVec.eq_of_toNat_eq
  rw [contByte_toNat, payload_toNat]; omega

/-- A byte with continuation bit 0 is the terminator byte of its payload. -/
theorem termByte_payload {b : Byte} (h : contBit b = false) : termByte (payload b) = b := by
  rw [contBit_eq_false_iff] at h
  apply BitVec.eq_of_toNat_eq
  rw [termByte_toNat, payload_toNat]; omega

@[simp] theorem trunc64_toNat (a : Nat) : (trunc64 a).toNat = a % 2 ^ 64 := by
  simp [trunc64]

theorem le_iff_toNat (rem : U64) : 128#64 ≤ rem ↔ 128 ≤ rem.toNat := by
  simp [BitVec.le_def]

@[simp] theorem shift7_toNat (rem : U64) : (rem >>> 7).toNat = rem.toNat / 128 := by
  simp [BitVec.toNat_ushiftRight, Nat.shiftRight_eq_div_pow]

/-- The byte on offer carries a continuation bit when any higher bits remain (40_encoder.md R111). -/
theorem contBit_encByte (rem : U64) : contBit (encByte rem) = decide (128 ≤ rem.toNat) := by
  unfold encByte
  by_cases h : 128#64 ≤ rem
  · have h' := (le_iff_toNat rem).1 h
    simp [h, h']
  · have h' := mt (le_iff_toNat rem).2 h
    simp [h]; omega

/-- The byte on offer carries the low seven bits. -/
@[simp] theorem payload_encByte (rem : U64) : payload (encByte rem) = low7 rem := by
  unfold encByte; split <;> simp

end Sys2Proof.Machine
end

