-- ==== Sys2Proof/Laws/Operands.lean ====
section
/-! SUPPORT. What the data computations give: the length of the canonical encoding,
    its recursion and its bytes, the
accumulator as a sum of payloads, and the three shapes of a byte sequence for `Dec`. -/

namespace Sys2Proof.Machine

/-! ## The length -/

/-- `bit_length(v)` is the least `k` with `v < 2^k` (00_scope.md R10). -/
theorem bitLength_le_iff (v : U64) (k : Nat) : bitLength v ≤ k ↔ v.toNat < 2 ^ k := by
  unfold bitLength
  split
  · next h => subst h; simp
  · next h =>
    have h' : v.toNat ≠ 0 := by
      intro h0; apply h; apply BitVec.eq_of_toNat_eq; simpa using h0
    rw [← Nat.log2_lt h']; omega

/-- A value needs at most `k` bytes exactly when it is below `2^(7k)` (30_encoding.md R83). -/
theorem encLen_le_iff (v : U64) (k : Nat) (hk : 1 ≤ k) : encLen v ≤ k ↔ v.toNat < 2 ^ (7 * k) := by
  rw [← bitLength_le_iff]; unfold encLen; omega

theorem encLen_pos (v : U64) : 1 ≤ encLen v := by unfold encLen; omega

theorem encLen_le_ten (v : U64) : encLen v ≤ 10 := by
  rw [encLen_le_iff _ _ (by omega)]; have := v.isLt; omega

/-- A value below 128 needs one byte. -/
theorem encLen_of_lt (v : U64) (h : v.toNat < 128) : encLen v = 1 := by
  have := encLen_pos v
  have := (encLen_le_iff v 1 (by omega)).2 (by omega)
  omega

/-- Otherwise one more than the shifted value. -/
theorem encLen_of_ge (v : U64) (h : 128 ≤ v.toNat) : encLen v = encLen (v >>> 7) + 1 := by
  have h1 := encLen_pos v
  have h2 := encLen_pos (v >>> 7)
  have key : ∀ k, 1 ≤ k → (encLen v ≤ k + 1 ↔ encLen (v >>> 7) ≤ k) := by
    intro k hk
    rw [encLen_le_iff _ _ hk, encLen_le_iff _ _ (by omega), shift7_toNat, Nat.div_lt_iff_lt_mul (by omega)]
    rw [show 7 * (k+1) = 7 * k + 7 by omega, Nat.pow_add]
  have h3 : ¬ encLen v ≤ 1 := by rw [encLen_le_iff _ _ (by omega)]; omega
  have a := (key (encLen (v >>> 7)) h2).2 (Nat.le_refl _)
  have b := (key (encLen v - 1) (by omega)).1 (by omega)
  omega

/-! ## The canonical encoding -/

/-- More shifts than the value needs change nothing. -/
theorem encFrom_fuel (k j : Nat) (v : U64) (h : v.toNat < 2 ^ (7 * (k + 1))) (hj : k ≤ j) :
    encFrom j v = encFrom k v := by
  induction k generalizing j v with
  | zero =>
    have h' : ¬ 128#64 ≤ v := by rw [le_iff_toNat]; omega
    cases j with
    | zero => rfl
    | succ j => simp [encFrom, h']
  | succ k ih =>
    cases j with
    | zero => omega
    | succ j =>
      simp only [encFrom]
      congr 1
      split
      · apply ih _ _ _ (by omega)
        rw [shift7_toNat, Nat.div_lt_iff_lt_mul (by omega)]
        rw [show 7 * (k+1+1) = 7 * (k+1) + 7 by omega, Nat.pow_add] at h
        exact h
      · rfl

/-- `Enc` unfolded once. -/
theorem encBytes_eq (v : U64) :
    encBytes v = encByte v :: (if 128#64 ≤ v then encBytes (v >>> 7) else []) := by
  show encFrom 9 v = _
  simp only [encFrom]
  congr 1
  split
  · have : (v >>> 7).toNat < 2 ^ (7 * (8+1)) := by
      rw [shift7_toNat]; have := v.isLt; omega
    exact (encFrom_fuel 8 9 _ this (by omega)).symm
  · rfl

/-- The last byte. -/
theorem encBytes_of_lt (v : U64) (h : v.toNat < 128) : encBytes v = [encByte v] := by
  rw [encBytes_eq, if_neg]; rw [le_iff_toNat]; omega

/-- A byte before the last. -/
theorem encBytes_of_ge (v : U64) (h : 128 ≤ v.toNat) : encBytes v = encByte v :: encBytes (v >>> 7) := by
  rw [encBytes_eq, if_pos]; rw [le_iff_toNat]; exact h

/-- Induction on a value by shifting it. -/
theorem value_induction {P : U64 → Prop} (small : ∀ v : U64, v.toNat < 128 → P v)
    (big : ∀ v : U64, 128 ≤ v.toNat → P (v >>> 7) → P v) (v : U64) : P v := by
  generalize hn : v.toNat = n
  induction n using Nat.strongRecOn generalizing v with
  | _ n ih =>
    by_cases h : v.toNat < 128
    · exact small v h
    · exact big v (by omega) (ih (v >>> 7).toNat (by rw [shift7_toNat]; omega) _ rfl)

theorem encBytes_length (v : U64) : (encBytes v).length = encLen v := by
  induction v using value_induction with
  | small v h => rw [encBytes_of_lt v h, encLen_of_lt v h]; rfl
  | big v h ih => rw [encBytes_of_ge v h, encLen_of_ge v h, List.length_cons, ih]

/-- Byte `i` is the byte on offer after `i` shifts (10_state.md R23). -/
theorem encBytes_getElem (v : U64) (i : Nat) (h : i < encLen v) :
    (encBytes v)[i]? = some (encByte (v >>> (7 * i))) := by
  induction v using value_induction generalizing i with
  | small v hv =>
    rw [encLen_of_lt v hv] at h
    have : i = 0 := by omega
    subst this; rw [encBytes_of_lt v hv]; simp
  | big v hv ih =>
    rw [encBytes_of_ge v hv]
    cases i with
    | zero => simp
    | succ i =>
      rw [encLen_of_ge v hv] at h
      rw [List.getElem?_cons_succ, ih i (by omega), ← BitVec.shiftRight_add]
      congr 3
      omega

/-- After `i` shifts higher bits remain exactly when another byte follows. -/
theorem shifted_ge_iff (v : U64) (i : Nat) (h : i < encLen v) :
    128 ≤ (v >>> (7 * i)).toNat ↔ i + 1 < encLen v := by
  have := encLen_le_iff v (i+1) (by omega)
  rw [BitVec.toNat_ushiftRight, Nat.shiftRight_eq_div_pow, Nat.le_div_iff_mul_le (Nat.two_pow_pos _)]
  rw [show 7 * (i + 1) = 7 + 7 * i by omega, Nat.pow_add] at this
  omega

/-! ## Payloads and the accumulator -/

theorem payloadSum_append (i : Nat) (ps qs : List U7) :
    payloadSum i (ps ++ qs) = payloadSum i ps + payloadSum (i + ps.length) qs := by
  induction ps generalizing i with
  | nil => simp [payloadSum]
  | cons p ps ih => simp only [List.cons_append, payloadSum, ih,
      List.length_cons]; rw [show i + 1 + ps.length = i + (ps.length + 1) by omega]; omega

/-- Payloads from place `i` on stay in their bits. -/
theorem payloadSum_lt (i : Nat) (ps : List U7) :
    payloadSum i ps + 2 ^ (7 * i) ≤ 2 ^ (7 * (i + ps.length)) := by
  induction ps generalizing i with
  | nil => simp [payloadSum]
  | cons p ps ih =>
    have := ih (i+1)
    have hp := p.isLt
    simp only [payloadSum, List.length_cons]
    rw [show i + (ps.length + 1) = i + 1 + ps.length by omega]
    rw [show 7 * (i+1) = 7 * i + 7 by omega, Nat.pow_add] at this
    have : p.toNat * 2 ^ (7*i) ≤ 127 * 2^(7*i) := Nat.mul_le_mul_right _ (by omega)
    omega

/-- Accumulating continuation bytes adds their payloads at their places (41_decoder.md R141). -/
theorem accFrom_toNat (n : Nat) (acc : U64) (bs : List Byte) (h : acc.toNat < 2 ^ (7 * n)) :
    (accFrom n acc bs).toNat = (acc.toNat + payloadSum n (bs.map payload)) % 2 ^ 64 := by
  induction bs generalizing n acc with
  | nil => simp [accFrom, payloadSum]; omega
  | cons b bs ih =>
    have step : (acc ||| trunc64 ((payload b).toNat <<< (7 * n))).toNat =
        (acc.toNat + (payload b).toNat * 2 ^ (7*n)) % 2 ^ 64 := by
      rw [BitVec.toNat_or, trunc64_toNat]
      have ha : acc.toNat = acc.toNat % 2 ^ 64 := (Nat.mod_eq_of_lt acc.isLt).symm
      rw [ha, ← Nat.or_mod_two_pow, ← ha, Nat.or_comm, ← Nat.shiftLeft_add_eq_or_of_lt h, Nat.shiftLeft_eq]
      congr 1; omega
    have hp := (payload b).isLt
    have lt : (acc ||| trunc64 ((payload b).toNat <<< (7 * n))).toNat < 2 ^ (7 * (n+1)) := by
      rw [step]
      refine Nat.lt_of_le_of_lt (Nat.mod_le _ _) ?_
      rw [show 7 * (n+1) = 7 * n + 7 by omega, Nat.pow_add]
      have : (payload b).toNat * 2 ^ (7*n) ≤ 127 * 2^(7*n) := Nat.mul_le_mul_right _ (by omega)
      omega
    simp only [accFrom, List.map_cons, payloadSum]
    rw [ih _ _ lt, step]
    omega

theorem accFrom_zero (bs : List Byte) : accFrom 0 0#64 bs = trunc64 (payloadSum 0 (bs.map payload)) := by
  apply BitVec.eq_of_toNat_eq
  rw [accFrom_toNat _ _ _ (by simp), trunc64_toNat]; simp

/-- The payloads of the canonical encoding sum to the value. -/
theorem payloadSum_encBytes (v : U64) (i : Nat) :
    payloadSum i ((encBytes v).map payload) = v.toNat * 2 ^ (7 * i) := by
  induction v using value_induction generalizing i with
  | small v h => rw [encBytes_of_lt v h]; simp [payloadSum]; omega
  | big v h ih =>
    rw [encBytes_of_ge v h]; simp only [List.map_cons, payloadSum, ih, payload_encByte, low7_toNat,
        shift7_toNat]
    rw [show 7 * (i+1) = 7 + 7 * i by omega, Nat.pow_add, ← Nat.mul_assoc, ← Nat.add_mul]
    congr 1; omega

theorem nextIndex_eq_some {n m : Fin 10} : nextIndex n = some m ↔ m.val = n.val + 1 := by
  unfold nextIndex
  split
  · simp [Fin.ext_iff, eq_comm]
  · simp; omega

theorem nextIndex_eq_none {n : Fin 10} : nextIndex n = none ↔ n.val = 9 := by
  unfold nextIndex; split <;> simp <;> omega

theorem accStep_eq_accFrom (acc : U64) (n : Fin 10) (b : Byte) :
    accStep acc n b = accFrom n.val acc [b] := rfl

theorem accFrom_append (n : Nat) (acc : U64) (bs cs : List Byte) :
    accFrom n acc (bs ++ cs) = accFrom (n + bs.length) (accFrom n acc bs) cs := by
  induction bs generalizing n acc with
  | nil => simp [accFrom]
  | cons b bs ih => simp only [List.cons_append, accFrom, ih, List.length_cons]; congr 1; omega

/-! ## `Dec` -/

/-- Continuation bytes below the cap are read on. -/
theorem decAt_conts (n m : Fin 10) (acc : U64) (bs t : List Byte) (h : ∀ b ∈ bs, contBit b = true)
    (hm : m.val = n.val + bs.length) :
    decAt n acc (bs ++ t) = decAt m (accFrom n acc bs) t := by
  induction bs generalizing n acc with
  | nil => have : n = m := by ext; simpa using hm.symm
           subst this; rfl
  | cons b bs ih =>
    simp only [List.length_cons] at hm
    have hn : nextIndex n = some ⟨n.val + 1, by omega⟩ := nextIndex_eq_some.2 rfl
    simp only [List.cons_append, decAt, h b (by simp), if_true, hn]
    rw [ih _ _ (fun c hc => h c (by simp [hc])) (by simp; omega)]
    rfl

theorem decAt_term (n : Fin 10) (acc : U64) (b : Byte) (t : List Byte) (h : contBit b = false) :
    decAt n acc (b :: t) = .accept (accStep acc n b) (n.val + 1) := by simp [decAt, h]

theorem decAt_over (n : Fin 10) (acc : U64) (b : Byte) (t : List Byte) (h : contBit b = true) (hn : n.val = 9) :
    decAt n acc (b :: t) = .reject 10 := by simp [decAt, h, nextIndex_eq_none.2 hn]

/-- Seen from index `n`, a byte sequence has a terminator in time, or a continuation byte at index 9, or it ends
before either. -/
theorem byte_shapes (n : Fin 10) (s : List Byte) :
    (∃ bs b t, s = bs ++ b :: t ∧ (∀ c ∈ bs, contBit c = true) ∧ contBit b = false ∧ n.val + bs.length ≤ 9) ∨
    (∃ bs b t, s = bs ++ b :: t ∧ (∀ c ∈ bs, contBit c = true) ∧ contBit b = true ∧ n.val + bs.length = 9) ∨
    ((∀ c ∈ s, contBit c = true) ∧ n.val + s.length ≤ 9) := by
  induction s generalizing n with
  | nil => right; right; simp; omega
  | cons b s ih =>
    cases hb : contBit b with
    | false => left; exact ⟨[], b, s, rfl, by simp, hb, by simp; omega⟩
    | true =>
      by_cases h9 : n.val = 9
      · right; left; exact ⟨[], b, s, rfl, by simp, hb, by simpa using h9⟩
      · rcases ih ⟨n.val+1, by omega⟩ with ⟨bs, c, t, rfl, h1, h2, h3⟩ | ⟨bs, c, t, rfl, h1, h2, h3⟩ | ⟨h1, h2⟩
        · left; refine ⟨b :: bs, c, t, rfl, ?_, h2, ?_⟩
          · simpa [hb] using h1
          · simp at h3 ⊢; omega
        · right; left; refine ⟨b :: bs, c, t, rfl, ?_, h2, ?_⟩
          · simpa [hb] using h1
          · simp at h3 ⊢; omega
        · right; right; refine ⟨?_, ?_⟩
          · simpa [hb] using h1
          · simp at h2 ⊢; omega

theorem decAt_accept (n : Fin 10) (acc : U64) (bs : List Byte) (b : Byte) (t : List Byte)
    (h : ∀ c ∈ bs, contBit c = true) (hb : contBit b = false) (hl : n.val + bs.length ≤ 9) :
    decAt n acc (bs ++ b :: t) = .accept (accFrom n acc (bs ++ [b])) (n.val + bs.length + 1) := by
  rw [decAt_conts n ⟨n.val + bs.length, by omega⟩ acc bs _ h rfl, decAt_term _ _ _ _ hb, accStep_eq_accFrom,
      accFrom_append]

theorem decAt_reject (n : Fin 10) (acc : U64) (bs : List Byte) (b : Byte) (t : List Byte)
    (h : ∀ c ∈ bs, contBit c = true) (hb : contBit b = true) (hl : n.val + bs.length = 9) :
    decAt n acc (bs ++ b :: t) = .reject 10 := by
  rw [decAt_conts n ⟨n.val + bs.length, by omega⟩ acc bs _ h rfl, decAt_over _ _ _ _ hb (by simpa using hl)]

theorem decAt_needMore (n m : Fin 10) (acc : U64) (bs : List Byte)
    (h : ∀ c ∈ bs, contBit c = true) (hl : m.val = n.val + bs.length) :
    decAt n acc bs = .needMore m := by
  have := decAt_conts n m acc bs [] h hl
  simpa [decAt] using this

/-- What `Dec` accepts (30_encoding.md R85). -/
theorem decBytes_eq_accept {s : List Byte} {v k} : decBytes s = .accept v k ↔
    ∃ bs b t, s = bs ++ b :: t ∧ (∀ c ∈ bs, contBit c = true) ∧ contBit b = false ∧ bs.length ≤ 9 ∧
      v = accFrom 0 0#64 (bs ++ [b]) ∧ k = bs.length + 1 := by
  constructor
  · intro h
    rcases byte_shapes 0 s with ⟨bs, b, t, rfl, h1, h2, h3⟩ | ⟨bs, b, t, rfl, h1, h2, h3⟩ | ⟨h1, h2⟩
    · rw [decBytes, decAt_accept _ _ _ _ _ h1 h2 h3] at h
      simp at h
      exact ⟨bs, b, t, rfl, h1, h2, by simpa using h3, h.1.symm, by omega⟩
    · rw [decBytes, decAt_reject _ _ _ _ _ h1 h2 h3] at h; cases h
    · rw [decBytes, decAt_needMore 0 ⟨s.length, by simp at h2; omega⟩ _ _ h1 (by simp)] at h; cases h
  · rintro ⟨bs, b, t, rfl, h1, h2, h3, rfl, rfl⟩
    rw [decBytes, decAt_accept _ _ _ _ _ h1 h2 (by simpa using h3)]
    simp

/-- Where `Dec` needs more. -/
theorem decBytes_eq_needMore {s : List Byte} {m} : decBytes s = .needMore m ↔
    (∀ c ∈ s, contBit c = true) ∧ s.length = m.val := by
  constructor
  · intro h
    rcases byte_shapes 0 s with ⟨bs, b, t, rfl, h1, h2, h3⟩ | ⟨bs, b, t, rfl, h1, h2, h3⟩ | ⟨h1, h2⟩
    · rw [decBytes, decAt_accept _ _ _ _ _ h1 h2 h3] at h; cases h
    · rw [decBytes, decAt_reject _ _ _ _ _ h1 h2 h3] at h; cases h
    · rw [decBytes, decAt_needMore 0 ⟨s.length, by simp at h2; omega⟩ _ _ h1 (by simp)] at h
      injection h with h; subst h; exact ⟨h1, rfl⟩
  · rintro ⟨h1, h2⟩
    exact decAt_needMore 0 m _ _ h1 (by simp [h2])

/-- The canonical encoding is continuation bytes and then a terminator. -/
theorem encBytes_shape (v : U64) : ∃ bs b, encBytes v = bs ++ [b] ∧ (∀ c ∈ bs, contBit c = true) ∧
    contBit b = false ∧ bs.length + 1 = encLen v ∧ b = encByte (v >>> (7 * (encLen v - 1))) := by
  induction v using value_induction with
  | small v h =>
    refine ⟨[], encByte v, encBytes_of_lt v h, by simp, ?_, ?_, ?_⟩
    · rw [contBit_encByte]; simpa using h
    · rw [encLen_of_lt v h]; rfl
    · rw [encLen_of_lt v h]; simp
  | big v h ih =>
    obtain ⟨bs, b, h1, h2, h3, h4, h5⟩ := ih
    refine ⟨encByte v :: bs, b, ?_, ?_, h3, ?_, ?_⟩
    · rw [encBytes_of_ge v h, h1]; rfl
    · have : contBit (encByte v) = true := by rw [contBit_encByte]; simpa using h
      simpa [this] using h2
    · rw [encLen_of_ge v h, ← h4]; rfl
    · rw [encLen_of_ge v h, h5, ← BitVec.shiftRight_add]; congr 2; have := encLen_pos (v >>> 7); omega

end Sys2Proof.Machine
end

