-- ==== Sys2Proof/Laws/Decode.lean ====
section
/-! SUPPORT. What the decoder of the wire format answers on each shape of a byte sequence,
    and the bytes of each row. -/

namespace Sys2Proof.Machine

theorem leadingPayloads_conts (ps : List U7) (cap : Nat) (rest : List Byte) :
    leadingPayloads (ps.length + cap) (ps.map contByte ++ rest) = ps ++ leadingPayloads cap rest := by
  induction ps with
  | nil => simp
  | cons p ps ih =>
    rw [List.length_cons, show ps.length + 1 + cap = (ps.length + cap) + 1 by omega]
    simp only [List.map_cons, List.cons_append, leadingPayloads, contBit_contByte, payload_contByte, if_true,
        ih]

theorem leadingPayloads_term (cap : Nat) (p : U7) (rest : List Byte) :
    leadingPayloads cap (termByte p :: rest) = [] := by
  cases cap <;> simp [leadingPayloads]

/-- The decoder on a form of at most ten bytes. -/
theorem decode_formBytes (ps : List U7) (p : U7) (rest : List Byte) (h : ps.length ≤ 9) :
    decode (formBytes ps p ++ rest) = decodedOf ps.length rest (varintOf (ps ++ [p])) := by
  have : leadingPayloads 10 (formBytes ps p ++ rest) = ps := by
    have := leadingPayloads_conts ps (10 - ps.length) (termByte p :: rest)
    rw [show ps.length + (10 - ps.length) = 10 by omega, leadingPayloads_term] at this
    simpa [formBytes] using this
  have h2 : tooLongOf ps = none := by
    match ps, h with
    | [], _ | [_], _ | [_,_], _ | [_,_,_], _ | [_,_,_,_], _ | [_,_,_,_,_], _ | [_,_,_,_,_,_],
        _ | [_,_,_,_,_,_,_], _ | [_,_,_,_,_,_,_,_], _ | [_,_,_,_,_,_,_,_,_], _ => rfl
  unfold decode
  simp only [this, h2]
  have hd : (formBytes ps p ++ rest).drop ps.length = termByte p :: rest := by
    unfold formBytes
    rw [List.append_assoc, List.drop_append_of_le_length (by simp)]
    simp
  rw [hd]; simp

/-- The decoder on ten continuation bytes. -/
theorem decode_contBytes (ps : List U7) (rest : List Byte) (h : ps.length = 10) :
    ∃ i, tooLongOf ps = some i ∧ decode (ps.map contByte ++ rest) = .form i rest := by
  have h1 : leadingPayloads 10 (ps.map contByte ++ rest) = ps := by
    have := leadingPayloads_conts ps 0 rest
    rw [h] at this; simpa [leadingPayloads] using this
  match ps, h with
  | [a,b,c,d,e,f,g,i,j,k], _ =>
    refine ⟨_, rfl, ?_⟩
    unfold decode; simp only [h1]; rfl

/-- The bytes of a `VARINTk` row. -/
theorem encode_of_form (i : Instr) (k : Nat) (h : i.kind = .form k) :
    ∃ ps p, encode i = formBytes ps p ∧ ps.length + 1 = k ∧ k ≤ 10 ∧ i.payloads = ps ++ [p] ∧ varintOf (ps ++
        [p]) = some i := by
  cases i <;> simp only [Instr.kind, RowKind.form.injEq, reduceCtorEq] at h <;> subst h <;> exact ⟨_, _, rfl,
      rfl, by omega, rfl, rfl⟩

/-- The bytes of the TOOLONG row. -/
theorem encode_of_tooLong (i : Instr) (h : i.kind = .tooLong) :
    encode i = i.payloads.map contByte ∧ i.payloads.length = 10 ∧ tooLongOf i.payloads = some i := by
  cases i <;> simp only [Instr.kind, reduceCtorEq] at h
  exact ⟨rfl, rfl, rfl⟩

theorem kind_cases (i : Instr) (h : i.kind ≠ .operation) : (∃ k, i.kind = .form k) ∨ i.kind = .tooLong := by
  cases hk : i.kind with
  | operation => exact absurd hk h
  | form k => exact Or.inl ⟨k, rfl⟩
  | tooLong => exact Or.inr rfl

/-- Continuation bytes are the continuation bytes of their payloads. -/
theorem map_contByte_payload {bs : List Byte} (h : ∀ c ∈ bs, contBit c = true) :
    bs = (bs.map payload).map contByte := by
  rw [List.map_map]; symm; rw [List.map_congr_left (g := id)]; simp
  intro c hc; simp [contByte_payload (h c hc)]

/-- The three shapes of a byte sequence, with its payloads. -/
theorem payload_shapes (s : List Byte) :
    (∃ (ps : List U7) (p : U7) (t : List Byte), s = formBytes ps p ++ t ∧ ps.length ≤ 9) ∨
    (∃ (ps : List U7) (t : List Byte), s = ps.map contByte ++ t ∧ ps.length = 10) ∨
    ((∀ c ∈ s, contBit c = true) ∧ s.length ≤ 9) := by
  rcases byte_shapes 0 s with ⟨bs, b, t, rfl, h1, h2, h3⟩ | ⟨bs, b, t, rfl, h1, h2, h3⟩ | ⟨h1, h2⟩
  · left; refine ⟨bs.map payload, payload b, t, ?_, by simpa using h3⟩
    rw [formBytes, ← map_contByte_payload h1, termByte_payload h2]; simp
  · right; left; refine ⟨(bs ++ [b]).map payload, t, ?_, by simpa using h3⟩
    rw [← map_contByte_payload]; simp
    simpa [h2, or_imp, forall_and] using h1
  · right; right; exact ⟨h1, by simpa using h2⟩

theorem varintOf_some (qs : List U7) (h1 : 1 ≤ qs.length) (h2 : qs.length ≤ 10) :
    ∃ i, varintOf qs = some i ∧ i.kind = .form qs.length ∧ i.payloads = qs ∧ (∀ ps p, qs = ps ++ [p] →
        encode i = formBytes ps p) := by
  match qs, h1, h2 with
  | [_], _, _ | [_,_], _, _ | [_,_,_], _, _ | [_,_,_,_], _, _ | [_,_,_,_,_], _, _ | [_,_,_,_,_,_], _,
      _ | [_,_,_,_,_,_,_], _, _ | [_,_,_,_,_,_,_,_], _, _ | [_,_,_,_,_,_,_,_,_], _, _ | [_,_,_,_,_,_,_,_,_,_],
      _, _ =>
    refine ⟨_, rfl, rfl, rfl, ?_⟩
    intro ps p h
    have h' := congrArg List.dropLast h
    have h'' := congrArg List.getLast? h
    simp at h' h''
    subst h'; subst h''; rfl

/-- The decoder rejects an incomplete form. -/
theorem decode_of_incomplete {s : List Byte} (h1 : ∀ c ∈ s, contBit c = true) (h2 : s.length ≤ 9) :
    decode s = .needMore s.length := by
  have : leadingPayloads 10 s = s.map payload := by
    have := leadingPayloads_conts (s.map payload) (10 - s.length) []
    rw [List.length_map, show s.length + (10 - s.length) = 10 by omega, ← map_contByte_payload h1] at this
    simpa [show ∀ c, leadingPayloads c [] = [] by intro c; cases c <;> rfl] using this
  unfold decode
  simp only [this]
  have h3 : tooLongOf (s.map payload) = none := by
    have : (s.map payload).length ≤ 9 := by simpa using h2
    generalize s.map payload = ps at this
    match ps, this with
    | [], _ | [_], _ | [_,_], _ | [_,_,_], _ | [_,_,_,_], _ | [_,_,_,_,_], _ | [_,_,_,_,_,_],
        _ | [_,_,_,_,_,_,_], _ | [_,_,_,_,_,_,_,_], _ | [_,_,_,_,_,_,_,_,_], _ => rfl
  rw [h3]; simp

/-- Everything the decoder can answer. -/
theorem decode_cases (s : List Byte) :
    (∃ (ps : List U7) (p : U7) (t : List Byte) (i : Instr), s = formBytes ps p ++ t ∧ ps.length ≤ 9 ∧
        decode s = .form i t ∧ i.kind = .form (ps.length+1) ∧ encode i = formBytes ps p ∧ i.payloads = ps ++
        [p]) ∨
    (∃ (ps : List U7) (t : List Byte) (i : Instr), s = ps.map contByte ++ t ∧ ps.length = 10 ∧ decode s =
        .form i t ∧ i.kind = .tooLong ∧ encode i = ps.map contByte ∧ i.payloads = ps) ∨
    ((∀ c ∈ s, contBit c = true) ∧ s.length ≤ 9 ∧ decode s = .needMore s.length) := by
  rcases payload_shapes s with ⟨ps, p, t, rfl, h⟩ | ⟨ps, t, rfl, h⟩ | ⟨h1, h2⟩
  · left
    obtain ⟨i, h1, h2, h3, h4⟩ := varintOf_some (ps ++ [p]) (by simp) (by simp; omega)
    refine ⟨ps, p, t, i, rfl, h, ?_, by simpa using h2, h4 _ _ rfl, h3⟩
    rw [decode_formBytes _ _ _ h, h1]; rfl
  · right; left
    obtain ⟨i, h1, h2⟩ := decode_contBytes ps t h
    match ps, h with
    | [a,b,c,d,e,f,g,k,j,l], _ =>
      simp only [tooLongOf, Option.some.injEq] at h1
      subst h1
      exact ⟨_, t, _, rfl, rfl, h2, rfl, rfl, rfl⟩
  · right; right; exact ⟨h1, h2, decode_of_incomplete h1 h2⟩

theorem isEncodedForm_formBytes (ps : List U7) (p : U7) (h : ps.length ≤ 9) :
    isEncodedForm (formBytes ps p) = true := by
  simp [isEncodedForm, formBytes]; omega

/-- The encoded forms (30_encoding.md R81). -/
theorem isEncodedForm_iff {bs : List Byte} :
    isEncodedForm bs = true ↔ ∃ cs b, bs = cs ++ [b] ∧ (∀ c ∈ cs, contBit c = true) ∧ contBit b = false ∧
        cs.length ≤ 9 := by
  rcases List.eq_nil_or_concat bs with rfl | ⟨cs, b, rfl⟩
  · simp [isEncodedForm]
  · rw [List.concat_eq_append]
    simp [isEncodedForm]
    constructor
    · rintro ⟨⟨h1, h2⟩, h3⟩; exact ⟨h2, h3, by omega⟩
    · rintro ⟨h2, h3, h1⟩; exact ⟨⟨by omega, h2⟩, h3⟩

/-- The bytes of a wire row: continuation bytes and one last byte. -/
theorem encode_shape (i : Instr) (h : i.kind ≠ .operation) :
    ∃ bs b, encode i = bs ++ [b] ∧ (∀ c ∈ bs, contBit c = true) ∧ bs.length ≤ 9 ∧ (contBit b = true →
        bs.length = 9) := by
  obtain ⟨k, hk⟩ | hk := kind_cases i h
  · obtain ⟨ps, p, h1⟩ : ∃ ps p, encode i = formBytes ps p ∧ ps.length ≤ 9 := by
      cases i <;> first | (cases hk; done) | exact ⟨_, _, rfl, by simp⟩
    exact ⟨_, _, h1.1, by simp, by simpa using h1.2, by simp⟩
  · cases i <;> first | (cases hk; done) | skip
    rename_i a b c d e f g h' i j
    exact ⟨[a,b,c,d,e,f,g,h',i].map contByte, contByte j, rfl, by simp, by simp, by simp⟩

end Sys2Proof.Machine
end

