-- ==== Sys2Proof/Laws/State.lean ====
section
/-! SUPPORT. One lemma for each field under each named update of the state, so that no later proof unfolds a
record update. -/

namespace Sys2Proof.Machine

variable (s : State)

/-! ## `setEnc` -/

@[simp] theorem State.setEnc_enc (e : EncState) : (s.setEnc e).enc = e := rfl
@[simp] theorem State.setEnc_dec (e : EncState) : (s.setEnc e).dec = s.dec := rfl
@[simp] theorem State.setEnc_sink (e : EncState) : (s.setEnc e).sink = s.sink := rfl
@[simp] theorem State.setEnc_sunk (e : EncState) : (s.setEnc e).sunk = s.sunk := rfl
@[simp] theorem State.setEnc_source (e : EncState) : (s.setEnc e).source = s.source := rfl
@[simp] theorem State.setEnc_encTrace (e : EncState) : (s.setEnc e).encTrace = s.encTrace := rfl
@[simp] theorem State.setEnc_decTrace (e : EncState) : (s.setEnc e).decTrace = s.decTrace := rfl
@[simp] theorem State.setEnc_agenda (e : EncState) : (s.setEnc e).agenda = s.agenda := rfl
@[simp] theorem State.setEnc_tick (e : EncState) : (s.setEnc e).tick = s.tick := rfl

/-! ## `setDec` -/

@[simp] theorem State.setDec_enc (d : DecState) : (s.setDec d).enc = s.enc := rfl
@[simp] theorem State.setDec_dec (d : DecState) : (s.setDec d).dec = d := rfl
@[simp] theorem State.setDec_sink (d : DecState) : (s.setDec d).sink = s.sink := rfl
@[simp] theorem State.setDec_sunk (d : DecState) : (s.setDec d).sunk = s.sunk := rfl
@[simp] theorem State.setDec_source (d : DecState) : (s.setDec d).source = s.source := rfl
@[simp] theorem State.setDec_encTrace (d : DecState) : (s.setDec d).encTrace = s.encTrace := rfl
@[simp] theorem State.setDec_decTrace (d : DecState) : (s.setDec d).decTrace = s.decTrace := rfl
@[simp] theorem State.setDec_agenda (d : DecState) : (s.setDec d).agenda = s.agenda := rfl
@[simp] theorem State.setDec_tick (d : DecState) : (s.setDec d).tick = s.tick := rfl

/-! ## `setSink` -/

@[simp] theorem State.setSink_enc (ds : List SnkDrive) : (s.setSink ds).enc = s.enc := rfl
@[simp] theorem State.setSink_dec (ds : List SnkDrive) : (s.setSink ds).dec = s.dec := rfl
@[simp] theorem State.setSink_sink (ds : List SnkDrive) : (s.setSink ds).sink = ds := rfl
@[simp] theorem State.setSink_sunk (ds : List SnkDrive) : (s.setSink ds).sunk = s.sunk := rfl
@[simp] theorem State.setSink_source (ds : List SnkDrive) : (s.setSink ds).source = s.source := rfl
@[simp] theorem State.setSink_encTrace (ds : List SnkDrive) : (s.setSink ds).encTrace = s.encTrace := rfl
@[simp] theorem State.setSink_decTrace (ds : List SnkDrive) : (s.setSink ds).decTrace = s.decTrace := rfl
@[simp] theorem State.setSink_agenda (ds : List SnkDrive) : (s.setSink ds).agenda = s.agenda := rfl
@[simp] theorem State.setSink_tick (ds : List SnkDrive) : (s.setSink ds).tick = s.tick := rfl

/-! ## `setSource` -/

@[simp] theorem State.setSource_enc (ds : List SrcDrive) : (s.setSource ds).enc = s.enc := rfl
@[simp] theorem State.setSource_dec (ds : List SrcDrive) : (s.setSource ds).dec = s.dec := rfl
@[simp] theorem State.setSource_sink (ds : List SrcDrive) : (s.setSource ds).sink = s.sink := rfl
@[simp] theorem State.setSource_sunk (ds : List SrcDrive) : (s.setSource ds).sunk = s.sunk := rfl
@[simp] theorem State.setSource_source (ds : List SrcDrive) : (s.setSource ds).source = ds := rfl
@[simp] theorem State.setSource_encTrace (ds : List SrcDrive) : (s.setSource ds).encTrace = s.encTrace := rfl
@[simp] theorem State.setSource_decTrace (ds : List SrcDrive) : (s.setSource ds).decTrace = s.decTrace := rfl
@[simp] theorem State.setSource_agenda (ds : List SrcDrive) : (s.setSource ds).agenda = s.agenda := rfl
@[simp] theorem State.setSource_tick (ds : List SrcDrive) : (s.setSource ds).tick = s.tick := rfl

/-! ## `append` -/

@[simp] theorem State.append_enc (bs : List Byte) : (s.append bs).enc = s.enc := rfl
@[simp] theorem State.append_dec (bs : List Byte) : (s.append bs).dec = s.dec := rfl
@[simp] theorem State.append_sink (bs : List Byte) : (s.append bs).sink = s.sink := rfl
@[simp] theorem State.append_sunk (bs : List Byte) : (s.append bs).sunk = s.sunk ++ bs := rfl
@[simp] theorem State.append_source (bs : List Byte) : (s.append bs).source = s.source := rfl
@[simp] theorem State.append_encTrace (bs : List Byte) : (s.append bs).encTrace = s.encTrace := rfl
@[simp] theorem State.append_decTrace (bs : List Byte) : (s.append bs).decTrace = s.decTrace := rfl
@[simp] theorem State.append_agenda (bs : List Byte) : (s.append bs).agenda = s.agenda := rfl
@[simp] theorem State.append_tick (bs : List Byte) : (s.append bs).tick = s.tick := rfl

/-! ## `noteEnc` -/

@[simp] theorem State.noteEnc_enc (ev : EncEvent) : (s.noteEnc ev).enc = s.enc := rfl
@[simp] theorem State.noteEnc_dec (ev : EncEvent) : (s.noteEnc ev).dec = s.dec := rfl
@[simp] theorem State.noteEnc_sink (ev : EncEvent) : (s.noteEnc ev).sink = s.sink := rfl
@[simp] theorem State.noteEnc_sunk (ev : EncEvent) : (s.noteEnc ev).sunk = s.sunk := rfl
@[simp] theorem State.noteEnc_source (ev : EncEvent) : (s.noteEnc ev).source = s.source := rfl
@[simp] theorem State.noteEnc_encTrace (ev : EncEvent) : (s.noteEnc ev).encTrace = s.encTrace ++ [ev] := rfl
@[simp] theorem State.noteEnc_decTrace (ev : EncEvent) : (s.noteEnc ev).decTrace = s.decTrace := rfl
@[simp] theorem State.noteEnc_agenda (ev : EncEvent) : (s.noteEnc ev).agenda = s.agenda := rfl
@[simp] theorem State.noteEnc_tick (ev : EncEvent) : (s.noteEnc ev).tick = s.tick := rfl

/-! ## `noteDec` -/

@[simp] theorem State.noteDec_enc (ev : DecEvent) : (s.noteDec ev).enc = s.enc := rfl
@[simp] theorem State.noteDec_dec (ev : DecEvent) : (s.noteDec ev).dec = s.dec := rfl
@[simp] theorem State.noteDec_sink (ev : DecEvent) : (s.noteDec ev).sink = s.sink := rfl
@[simp] theorem State.noteDec_sunk (ev : DecEvent) : (s.noteDec ev).sunk = s.sunk := rfl
@[simp] theorem State.noteDec_source (ev : DecEvent) : (s.noteDec ev).source = s.source := rfl
@[simp] theorem State.noteDec_encTrace (ev : DecEvent) : (s.noteDec ev).encTrace = s.encTrace := rfl
@[simp] theorem State.noteDec_decTrace (ev : DecEvent) : (s.noteDec ev).decTrace = s.decTrace ++ [ev] := rfl
@[simp] theorem State.noteDec_agenda (ev : DecEvent) : (s.noteDec ev).agenda = s.agenda := rfl
@[simp] theorem State.noteDec_tick (ev : DecEvent) : (s.noteDec ev).tick = s.tick := rfl

/-! ## `advance` -/

@[simp] theorem State.advance_enc : s.advance.enc = s.enc := rfl
@[simp] theorem State.advance_dec : s.advance.dec = s.dec := rfl
@[simp] theorem State.advance_sink : s.advance.sink = s.sink := rfl
@[simp] theorem State.advance_sunk : s.advance.sunk = s.sunk := rfl
@[simp] theorem State.advance_source : s.advance.source = s.source := rfl
@[simp] theorem State.advance_encTrace : s.advance.encTrace = s.encTrace := rfl
@[simp] theorem State.advance_decTrace : s.advance.decTrace = s.decTrace := rfl
@[simp] theorem State.advance_agenda : s.advance.agenda = s.agenda.tail := rfl
@[simp] theorem State.advance_tick : s.advance.tick = s.tick + 1 := rfl

end Sys2Proof.Machine
end

