-- ==== Sys2Proof/Laws/Ops.lean ====
section
/-! SUPPORT. What the shared operations do: one access to a stream,
    the loops of the two operations on every list of
answers, and the operations in terms of the loops. -/

namespace Sys2Proof.Machine

/-! ## Streams -/

theorem pastAnswers_add {α β} (f : α → Option β) (i j : Nat) (ds : List α) :
    pastAnswers f j (pastAnswers f i ds) = pastAnswers f (i + j) ds := by
  induction ds generalizing i with
  | nil => cases i <;> cases j <;> rfl
  | cons d ds ih =>
    cases i with
    | zero => simp [pastAnswers]
    | succ i =>
      rw [show i + 1 + j = (i + j) + 1 by omega]
      simp only [pastAnswers]
      split
      · rw [ih]
      · rw [ih, show i + 1 + j = (i + j) + 1 by omega]

theorem pastAnswers_eq_nil {α β} (f : α → Option β) (ds : List α) (h : (ds.filterMap f).length < n) :
    pastAnswers f n ds = [] := by
  induction ds generalizing n with
  | nil => cases n <;> rfl
  | cons d ds ih =>
    cases n with
    | zero => simp at h
    | succ n =>
      cases hd : f d with
      | none => simp [pastAnswers, hd]; apply ih; simpa [hd] using h
      | some a => simp [pastAnswers, hd]; apply ih; simp [List.filterMap_cons_some hd] at h; omega

theorem pastAnswers_bytes (bs : List Byte) (ds : List SrcDrive) (k : Nat) (h : k ≤ bs.length) :
    pastAnswers SrcDrive.answer k (bs.map SrcDrive.byte ++ ds) = (bs.drop k).map SrcDrive.byte ++ ds := by
  induction bs generalizing k with
  | nil => simp at h; subst h; simp [pastAnswers]
  | cons b bs ih =>
    cases k with
    | zero => rfl
    | succ k => simp at h; simp [pastAnswers, SrcDrive.answer, ih k h]

theorem answers_bytes (bs : List Byte) (ds : List SrcDrive) :
    (bs.map SrcDrive.byte ++ ds).filterMap SrcDrive.answer = bs.map SrcAnswer.byte ++
        ds.filterMap SrcDrive.answer := by
  induction bs with
  | nil => rfl
  | cons b bs ih => simp [SrcDrive.answer, ih]

/-- Answers are the bytes before the first failure, and then nothing or that failure. -/
theorem leadBytes_split (as : List SrcAnswer) :
    ∃ more, as = (leadBytes as).map SrcAnswer.byte ++ more ∧ (more = [] ∨ ∃ e r, more = .fail e :: r) := by
  induction as with
  | nil => exact ⟨[], rfl, Or.inl rfl⟩
  | cons a as ih =>
    cases a with
    | fail e => exact ⟨_, rfl, Or.inr ⟨e, as, rfl⟩⟩
    | byte b =>
      obtain ⟨m, h1, h2⟩ := ih
      refine ⟨m, ?_, h2⟩
      simp only [leadBytes, List.map_cons, List.cons_append]
      rw [← h1]

theorem leadBytes_append (bs : List Byte) (as) :
    leadBytes (bs.map SrcAnswer.byte ++ as) = bs ++ leadBytes as := by
  induction bs with
  | nil => rfl
  | cons b bs ih => simp [leadBytes, ih]

/-! ## The encoder -/

theorem encFire_wr (rem : U64) :
    encFire (.emit rem) (.wr (encByte rem)) = some (if 128#64 ≤ rem then .emit (rem >>> 7) else .done) := by
  simp [encFire]

/-- The sink accepts the byte on offer (40_encoder.md R113). -/
theorem offer_ok (s : State) (rem : U64) (h : s.enc = .emit rem) (d : SnkDrive) (hd : d.answer = some .ok) :
    s.offer d = { s with
      enc := if 128#64 ≤ rem then .emit (rem >>> 7) else .done
      sunk := s.sunk ++ [encByte rem]
      encTrace := s.encTrace ++ [.wr (encByte rem)] } := by
  unfold State.offer; rw [h]; simp only [hd]; unfold State.encEvent; rw [h, encFire_wr]; rfl

/-- The sink fails the write (R114). -/
theorem offer_fail (s : State) (rem : U64) (h : s.enc = .emit rem) (d : SnkDrive) (e) (hd : d.answer =
    some (.fail e)) :
    s.offer d = { s with enc := .failed e, encTrace := s.encTrace ++ [.wrfail e] } := by
  unfold State.offer; rw [h]; simp only [hd]; unfold State.encEvent; rw [h]
  simp [encFire, EncState.raise, State.setEnc, State.append, State.noteEnc, EncEvent.written]

/-- The sink does not answer (R119). -/
theorem offer_none (s : State) (d : SnkDrive) (hd : d.answer = none) : s.offer d = s := by
  unfold State.offer; cases h : s.enc <;> simp [hd]

theorem writeLoop_of_not_emit (ds : List SnkDrive) (s : State) (h : ∀ rem, s.enc ≠ .emit rem) :
    writeLoop ds s = s := by
  cases ds with
  | nil => rfl
  | cons d ds =>
    unfold writeLoop
    cases h' : s.enc with
    | emit rem => exact absurd h' (h rem)
    | _ => rfl

theorem writeLoop_cons (d : SnkDrive) (ds : List SnkDrive) (s : State) (rem) (h : s.enc = .emit rem) :
    writeLoop (d :: ds) s = writeLoop ds ((s.setSink ds).offer d) := by
  simp only [writeLoop, h]

/-- The state after `bs` were written, the encoder having moved to `e` and the sink to `ds`. -/
def State.wroteBytes (s : State) (e : EncState) (ds : List SnkDrive) (bs : List Byte) : State :=
  { s with enc := e, sink := ds, sunk := s.sunk ++ bs, encTrace := s.encTrace ++ bs.map EncEvent.wr }

/-- The sink accepts all that is left. -/
theorem writeLoop_ok (ds : List SnkDrive) (s : State) (rem : U64) (h : s.enc = .emit rem)
    (ha : (ds.filterMap SnkDrive.answer).take (encLen rem) = List.replicate (encLen rem) .ok) :
    writeLoop ds s = State.wroteBytes s .done (pastAnswers SnkDrive.answer (encLen rem) ds) (encBytes rem) := by
  induction ds generalizing s rem with
  | nil =>
    have := congrArg List.length ha
    have := encLen_pos rem
    simp at *; omega
  | cons d ds ih =>
    rw [writeLoop_cons _ _ _ _ h]
    have hp := encLen_pos rem
    obtain ⟨L, hL⟩ : ∃ L, encLen rem = L + 1 := ⟨encLen rem - 1, by omega⟩
    cases hd : d.answer with
    | none =>
      rw [offer_none _ _ hd, ih _ _ (by simpa using h) (by simpa [hd] using ha)]
      rw [hL]; simp only [pastAnswers, hd, Option.isSome_none, Bool.false_eq_true, if_false]; rfl
    | some a =>
      rw [List.filterMap_cons_some hd, hL, List.take_succ_cons, List.replicate_succ] at ha
      injection ha with ha1 ha2
      subst ha1
      rw [offer_ok _ rem (by simpa using h) _ hd]
      have hpast : pastAnswers SnkDrive.answer (encLen rem) (d :: ds) = pastAnswers SnkDrive.answer L ds := by
        rw [hL]; simp [pastAnswers, hd]
      rw [hpast]
      by_cases hb : 128 ≤ rem.toNat
      · have hb' := (le_iff_toNat rem).2 hb
        have hLL : encLen (rem >>> 7) = L := by have := encLen_of_ge rem hb; omega
        rw [ih _ (rem >>> 7) (by simp [hb']) (by rw [hLL]; exact ha2), hLL, encBytes_of_ge rem hb]
        simp [State.wroteBytes]
      · have hb' : ¬ 128#64 ≤ rem := by rw [le_iff_toNat]; exact hb
        have : L = 0 := by have := encLen_of_lt rem (by omega); omega
        subst this
        rw [writeLoop_of_not_emit _ _ (by simp [hb']), encBytes_of_lt rem (by omega)]
        simp [State.wroteBytes, hb', pastAnswers]

/-- The sink accepts `k` bytes and fails the next. -/
theorem writeLoop_fail (ds : List SnkDrive) (s : State) (rem : U64) (k : Nat) (e : IoInfo) (h : s.enc =
    .emit rem) (hk : k < encLen rem)
    (ha : (ds.filterMap SnkDrive.answer).take (k+1) = List.replicate k .ok ++ [.fail e]) :
    writeLoop ds s = { State.wroteBytes s (.failed e) (pastAnswers SnkDrive.answer (k+1) ds) ((encBytes
        rem).take k) with
      encTrace := s.encTrace ++ ((encBytes rem).take k).map EncEvent.wr ++ [.wrfail e] } := by
  induction ds generalizing s rem k with
  | nil => have := congrArg List.length ha; simp at this
  | cons d ds ih =>
    rw [writeLoop_cons _ _ _ _ h]
    cases hd : d.answer with
    | none =>
      rw [offer_none _ _ hd, ih _ _ _ (by simpa using h) hk (by simpa [hd] using ha)]
      simp only [pastAnswers, hd, Option.isSome_none, Bool.false_eq_true, if_false]; rfl
    | some a =>
      rw [List.filterMap_cons_some hd, List.take_succ_cons] at ha
      have hpast : pastAnswers SnkDrive.answer (k+1) (d :: ds) = pastAnswers SnkDrive.answer k ds := by
        simp [pastAnswers, hd]
      rw [hpast]
      cases k with
      | zero =>
        simp at ha; subst ha
        rw [offer_fail _ rem (by simpa using h) _ e hd, writeLoop_of_not_emit _ _ (by simp)]
        simp [State.wroteBytes, pastAnswers]
      | succ k =>
        rw [List.replicate_succ, List.cons_append] at ha
        injection ha with ha1 ha2
        subst ha1
        rw [offer_ok _ rem (by simpa using h) _ hd]
        have hb : 128 ≤ rem.toNat := by
          by_contra hb; have := encLen_of_lt rem (by omega); omega
        have hb' := (le_iff_toNat rem).2 hb
        have hLL := encLen_of_ge rem hb
        rw [ih _ (rem >>> 7) k (by simp [hb']) (by omega) ha2, encBytes_of_ge rem hb]
        simp [State.wroteBytes]

/-- The sink accepts `k` bytes and falls silent. -/
theorem writeLoop_wait (ds : List SnkDrive) (s : State) (rem : U64) (k : Nat) (h : s.enc =
    .emit rem) (hk : k < encLen rem)
    (hs : s.sink = ds) (ha : ds.filterMap SnkDrive.answer = List.replicate k .ok) :
    writeLoop ds s = State.wroteBytes s (.emit (rem >>> (7 * k))) [] ((encBytes rem).take k) := by
  induction ds generalizing s rem k with
  | nil =>
    have := congrArg List.length ha; simp at this; subst this
    simp only [writeLoop, State.wroteBytes, List.take_zero, List.map_nil, List.append_nil, Nat.mul_zero]
    cases s; simp at *; simp [h, hs]
  | cons d ds ih =>
    rw [writeLoop_cons _ _ _ _ h]
    cases hd : d.answer with
    | none =>
      rw [offer_none _ _ hd, ih _ _ _ (by simpa using h) hk rfl (by simpa [hd] using ha)]
      rfl
    | some a =>
      rw [List.filterMap_cons_some hd] at ha
      cases k with
      | zero => simp at ha
      | succ k =>
        rw [List.replicate_succ] at ha
        injection ha with ha1 ha2
        subst ha1
        rw [offer_ok _ rem (by simpa using h) _ hd]
        have hb : 128 ≤ rem.toNat := by
          by_contra hb; have := encLen_of_lt rem (by omega); omega
        have hb' := (le_iff_toNat rem).2 hb
        have hLL := encLen_of_ge rem hb
        rw [ih _ (rem >>> 7) k (by simp [hb']) (by omega) rfl ha2, encBytes_of_ge rem hb]
        have hsh : rem >>> 7 >>> (7 * k) = rem >>> (7 * (k + 1)) := by
          rw [← BitVec.shiftRight_add]; congr 1; omega
        rw [hsh]; simp [State.wroteBytes]

/-- ENCODE taken in `Idle` is the loop after `enc.cmd`. -/
theorem exec_encode_of_idle (v : U64) (s : State) (h : s.enc = .idle) :
    exec (.encode v) s = .next (writeLoop s.sink { s with
      enc := .emit v
      encTrace := s.encTrace ++ [.cmd v] }) := by
  show execEncode v s = _
  unfold execEncode; rw [h]; simp only
  unfold State.encEvent; rw [h]
  simp [encFire, State.writeOn, State.setEnc, State.append, State.noteEnc, EncEvent.written]

/-- A list of answers accepts `L` bytes, or fails before, or ends before. -/
theorem sinkAnswers_cases (as : List SnkAnswer) (L : Nat) :
    (as.take L = List.replicate L .ok ∧ L ≤ (as.takeWhile (fun a => decide (a = .ok))).length) ∨
    (∃ k e, k < L ∧ as.take (k + 1) = List.replicate k .ok ++ [.fail e] ∧
      (as.takeWhile (fun a => decide (a = .ok))).length = k ∧ as[k]? = some (.fail e)) ∨
    (∃ k, k < L ∧ as = List.replicate k .ok ∧
      (as.takeWhile (fun a => decide (a = .ok))).length = k ∧ as[k]? = none) := by
  induction L generalizing as with
  | zero => left; exact ⟨rfl, Nat.zero_le _⟩
  | succ L ih =>
    cases as with
    | nil => right; right; exact ⟨0, by omega, rfl, rfl, rfl⟩
    | cons a as =>
      cases a with
      | fail e => right; left; exact ⟨0, e, by omega, by simp, by simp, by simp⟩
      | ok =>
        rcases ih as with ⟨h, h'⟩ | ⟨k, e, hk, h, h', h''⟩ | ⟨k, hk, h, h', h''⟩
        · left; exact ⟨by simp [h, List.replicate_succ], by simpa using h'⟩
        · right; left; exact ⟨k+1, e, by omega, by rw [List.take_succ_cons, h]; rfl, by simpa using h',
            by simpa using h''⟩
        · right; right; exact ⟨k+1, by omega, by rw [h]; rfl, by simpa using h', by simpa using h''⟩

/-! ## The decoder -/

/-- The source delivers a byte (41_decoder.md R143 to R145). -/
theorem ask_byte (s : State) (n acc) (h : s.dec = .reading n acc) (d : SrcDrive) (b) (hd : d.answer =
    some (.byte b)) :
    s.ask d = { s with dec := readByte n acc b, decTrace := s.decTrace ++ [.rd b] } := by
  unfold State.ask; rw [h]; simp only [hd]; unfold State.decEvent; rw [h]; rfl

/-- The source fails the read (R147). -/
theorem ask_fail (s : State) (n acc) (h : s.dec = .reading n acc) (d : SrcDrive) (e) (hd : d.answer =
    some (.fail e)) :
    s.ask d = { s with dec := .failed (.io e), decTrace := s.decTrace ++ [.rdfail e] } := by
  unfold State.ask; rw [h]; simp only [hd]; unfold State.decEvent; rw [h]; rfl

/-- The source does not answer (R151). -/
theorem ask_none (s : State) (d : SrcDrive) (hd : d.answer = none) : s.ask d = s := by
  unfold State.ask; cases h : s.dec <;> simp [hd]

theorem readByte_term {n acc b} (h : contBit b = false) :
    readByte n acc b = .done (accStep acc n b) := by simp [readByte, h]

theorem readByte_over {n acc b} (h : contBit b = true) (hn : n.val = 9) :
    readByte n acc b = .failed .tooLong := by
  simp [readByte, h, nextIndex_eq_none.2 hn, DecState.raise]

theorem readByte_cont {n m : Fin 10} {acc b} (h : contBit b = true) (hn : m.val = n.val + 1) :
    readByte n acc b = .reading m (accStep acc n b) := by
  simp [readByte, h, nextIndex_eq_some.2 hn]

theorem readByte_eq_failed {n acc b err} :
    readByte n acc b = .failed err ↔ n = 9 ∧ contBit b = true ∧ err = .tooLong := by
  unfold readByte
  by_cases h : contBit b = true
  · simp only [h, if_true]
    cases hn : nextIndex n with
    | none => have := nextIndex_eq_none.1 hn; simp [DecState.raise]; constructor
              · intro h; exact ⟨by ext; exact this, h.symm⟩
              · intro h; exact h.2.symm
    | some m => have := nextIndex_eq_some.1 hn; have := m.isLt; simp; intro h; subst h; simp at *; omega
  · simp [h]

theorem readLoop_of_not_reading (ds : List SrcDrive) (s : State) (h : ∀ n acc, s.dec ≠ .reading n acc) :
    readLoop ds s = s := by
  cases ds with
  | nil => rfl
  | cons d ds =>
    unfold readLoop
    cases h' : s.dec with
    | reading n acc => exact absurd h' (h n acc)
    | _ => rfl

theorem readLoop_cons (d : SrcDrive) (ds : List SrcDrive) (s : State) (n acc) (h : s.dec = .reading n acc) :
    readLoop (d :: ds) s = readLoop ds ((s.setSource ds).ask d) := by
  simp only [readLoop, h]

/-- The state after `bs` were consumed, the decoder having moved to `d` and the source to `ds`. -/
def State.readBytes (s : State) (d : DecState) (ds : List SrcDrive) (bs : List Byte) : State :=
  { s with dec := d, source := ds, decTrace := s.decTrace ++ bs.map DecEvent.rd }

/-- Continuation bytes below the cap are consumed, and the loop goes on with the rest of the answers. -/
theorem readLoop_conts (ds : List SrcDrive) (s : State) (n m : Fin 10) (acc : U64) (bs : List Byte) (as : List
    SrcAnswer)
    (h : s.dec = .reading n acc) (hs : s.source = ds) (hc : ∀ b ∈ bs, contBit b = true) (hm : m.val =
        n.val + bs.length)
    (ha : ds.filterMap SrcDrive.answer = bs.map SrcAnswer.byte ++ as) :
    readLoop ds s = readLoop (pastAnswers SrcDrive.answer bs.length ds)
      (State.readBytes s (.reading m (accFrom n.val acc bs)) (pastAnswers SrcDrive.answer bs.length ds) bs) ∧
    (pastAnswers SrcDrive.answer bs.length ds).filterMap SrcDrive.answer = as := by
  induction ds generalizing s n acc bs with
  | nil =>
    have : bs = [] := by cases bs with | nil => rfl | cons => simp at ha
    subst this
    have hnm : n = m := by ext; simpa using hm.symm
    subst hnm
    simp at ha; subst ha
    constructor
    · simp only [State.readBytes, accFrom, List.map_nil, List.append_nil]
      cases s; simp at *; simp [h, hs, pastAnswers]
    · simp [pastAnswers]
  | cons d ds ih =>
    cases bs with
    | nil =>
      have hnm : n = m := by ext; simpa using hm.symm
      subst hnm
      constructor
      · simp only [State.readBytes, accFrom, List.map_nil, List.append_nil]
        cases s; simp at *; simp [h, hs, pastAnswers]
      · simpa [pastAnswers] using ha
    | cons b bs =>
      cases hd : d.answer with
      | none =>
        rw [readLoop_cons _ _ _ _ _ h, ask_none _ _ hd]
        have := ih (s.setSource ds) n acc (b :: bs) (by simpa using h) rfl hc hm (by simpa [hd] using ha)
        rw [this.1]
        have e : pastAnswers SrcDrive.answer (b :: bs).length (d :: ds) =
            pastAnswers SrcDrive.answer (b :: bs).length ds := by
          simp [pastAnswers, hd]
        rw [e]
        exact ⟨rfl, this.2⟩
      | some a =>
        rw [List.filterMap_cons_some hd, List.map_cons, List.cons_append] at ha
        injection ha with h1 h2
        subst h1
        rw [readLoop_cons _ _ _ _ _ h, ask_byte _ n acc (by simpa using h) _ _ hd]
        simp only [List.length_cons] at hm
        rw [readByte_cont (m := ⟨n.val+1, by omega⟩) (hc b (by simp)) rfl]
        have := ih { s.setSource ds with
            dec := .reading ⟨n.val+1, by omega⟩ (accStep acc n b)
            decTrace := s.decTrace ++ [.rd b] } ⟨n.val+1, by omega⟩ (accStep acc n b) bs rfl rfl
          (fun c hc' => hc c (by simp [hc'])) (by simp; omega) h2
        have e : pastAnswers SrcDrive.answer (b :: bs).length (d :: ds) =
            pastAnswers SrcDrive.answer bs.length ds := by
          simp [pastAnswers, hd]
        rw [e]
        refine ⟨?_, this.2⟩
        refine Eq.trans this.1 ?_
        simp [State.readBytes, accFrom, accStep]

/-- A byte that ends the operation. -/
theorem readLoop_byte (ds : List SrcDrive) (s : State) (n : Fin 10) (acc : U64) (b : Byte) (as : List SrcAnswer)
    (h : s.dec = .reading n acc) (hb : ∀ m a, readByte n acc b ≠ .reading m a)
    (ha : ds.filterMap SrcDrive.answer = .byte b :: as) :
    readLoop ds s = State.readBytes s (readByte n acc b) (pastAnswers SrcDrive.answer 1 ds) [b] := by
  induction ds generalizing s with
  | nil => simp at ha
  | cons d ds ih =>
    rw [readLoop_cons _ _ _ _ _ h]
    cases hd : d.answer with
    | none =>
      rw [ask_none _ _ hd, ih _ (by simpa using h) (by simpa [hd] using ha)]
      simp [pastAnswers, hd]; rfl
    | some a =>
      rw [List.filterMap_cons_some hd] at ha
      injection ha with h1 h2
      subst h1
      rw [ask_byte _ n acc (by simpa using h) _ _ hd, readLoop_of_not_reading _ _ (by simpa using hb)]
      simp [State.readBytes, pastAnswers, hd]

/-- A failed read. -/
theorem readLoop_fail (ds : List SrcDrive) (s : State) (n : Fin 10) (acc : U64) (e : IoInfo) (as : List
    SrcAnswer)
    (h : s.dec = .reading n acc)
    (ha : ds.filterMap SrcDrive.answer = .fail e :: as) :
    readLoop ds s = { s with
      dec := .failed (.io e)
      source := pastAnswers SrcDrive.answer 1 ds
      decTrace := s.decTrace ++ [.rdfail e] } := by
  induction ds generalizing s with
  | nil => simp at ha
  | cons d ds ih =>
    rw [readLoop_cons _ _ _ _ _ h]
    cases hd : d.answer with
    | none =>
      rw [ask_none _ _ hd, ih _ (by simpa using h) (by simpa [hd] using ha)]
      simp [pastAnswers, hd]
    | some a =>
      rw [List.filterMap_cons_some hd] at ha
      injection ha with h1 h2
      subst h1
      rw [ask_fail _ n acc (by simpa using h) _ _ hd, readLoop_of_not_reading _ _ (by simp)]
      simp [pastAnswers, hd]

/-- No answer any more. -/
theorem readLoop_silent (ds : List SrcDrive) (s : State) (n : Fin 10) (acc : U64)
    (h : s.dec = .reading n acc) (hs : s.source = ds) (ha : ds.filterMap SrcDrive.answer = []) :
    readLoop ds s = { s with source := [] } := by
  induction ds generalizing s with
  | nil => cases s; simp at hs; subst hs; rfl
  | cons d ds ih =>
    rw [readLoop_cons _ _ _ _ _ h]
    have hd : d.answer = none := by
      cases hd : d.answer with
      | none => rfl
      | some a => rw [List.filterMap_cons_some hd] at ha; cases ha
    rw [ask_none _ _ hd, ih _ (by simpa using h) rfl (by simpa [hd] using ha)]
    rfl

/-- Continuation bytes and then a byte that ends the operation. -/
theorem readLoop_end (ds : List SrcDrive) (s : State) (n m : Fin 10) (acc : U64) (bs : List Byte) (b : Byte)
    (as : List SrcAnswer)
    (h : s.dec = .reading n acc) (hs : s.source = ds) (hc : ∀ b ∈ bs, contBit b = true) (hm : m.val =
        n.val + bs.length)
    (hb : ∀ k a, readByte m (accFrom n.val acc bs) b ≠ .reading k a)
    (ha : ds.filterMap SrcDrive.answer = bs.map SrcAnswer.byte ++ .byte b :: as) :
    readLoop ds s = State.readBytes s (readByte m (accFrom n.val acc bs) b) (pastAnswers SrcDrive.answer
        (bs.length + 1) ds) (bs ++ [b]) := by
  obtain ⟨h1, h2⟩ := readLoop_conts ds s n m acc bs _ h hs hc hm ha
  rw [h1, readLoop_byte (pastAnswers SrcDrive.answer bs.length ds) (State.readBytes s (.reading m (accFrom
      n.val acc bs)) (pastAnswers SrcDrive.answer bs.length ds) bs) m (accFrom n.val acc bs) b as rfl hb h2,
      pastAnswers_add]
  simp [State.readBytes]

/-- DECODE taken in `Idle` is the loop after `dec.start`. -/
theorem exec_decode_of_idle (s : State) (h : s.dec = .idle) :
    exec .decode s = .next (readLoop s.source { s with
      dec := .reading 0 0#64
      decTrace := s.decTrace ++ [.start] }) := by
  show execDecode s = _
  unfold execDecode; rw [h]; simp only
  unfold State.decEvent; rw [h]; rfl

/-- A wire row is the delivery of its bytes. -/
theorem exec_of_wire (i : Instr) (s : State) (h : i.kind ≠ .operation) :
    exec i s = .next (s.deliver (encode i)) := by
  cases i <;> first | rfl | (exact absurd rfl h)

/-- A delivery whose bytes end the operation. -/
theorem deliver_end (s : State) (n m : Fin 10) (acc : U64) (bs : List Byte) (b : Byte) (t : List Byte)
    (h : s.dec = .reading n acc) (hc : ∀ b ∈ bs, contBit b = true) (hm : m.val = n.val + bs.length)
    (hb : ∀ k a, readByte m (accFrom n.val acc bs) b ≠ .reading k a) :
    s.deliver (bs ++ b :: t) = State.readBytes s (readByte m (accFrom n.val acc bs) b) (t.map SrcDrive.byte ++
        s.source) (bs ++ [b]) := by
  unfold State.deliver State.readOn
  rw [readLoop_end _ (s.setSource ((bs ++ b :: t).map SrcDrive.byte ++
      s.source)) n m acc bs b (t.map SrcAnswer.byte ++ s.source.filterMap SrcDrive.answer) (by simpa using h)
      rfl hc hm hb
    (by rw [State.setSource, answers_bytes]; simp)]
  have : pastAnswers SrcDrive.answer (bs.length + 1) (s.setSource ((bs ++ b :: t).map SrcDrive.byte ++
      s.source)).source = t.map SrcDrive.byte ++ s.source := by
    rw [State.setSource, pastAnswers_bytes _ _ _ (by simp)]
    rw [show bs ++ b :: t = (bs ++ [b]) ++ t by simp, List.drop_left' (by simp)]
  rw [this]; rfl

end Sys2Proof.Machine
end

