-- ==== Sys2Proof/Laws/Invariant.lean ====
section
/-! SUPPORT. The invariant under one event of each block: what `encFire` and `decFire` keep. -/

namespace Sys2Proof.Machine

theorem writesSinceCmd_append (tr : List EncEvent) (ev) :
    writesSinceCmd (tr ++ [ev]) =
      match ev with
      | .cmd _ => 0
      | .wr _ => writesSinceCmd tr + 1
      | .wrfail _ => writesSinceCmd tr
      | .res _ => writesSinceCmd tr := by
  unfold writesSinceCmd; rw [List.foldl_append]; cases ev <;> rfl

theorem readsSinceStart_append (tr : List DecEvent) (ev) :
    readsSinceStart (tr ++ [ev]) =
      match ev with
      | .start => 0
      | .rd _ => readsSinceStart tr + 1
      | .rdfail _ => readsSinceStart tr
      | .res _ => readsSinceStart tr := by
  unfold readsSinceStart; rw [List.foldl_append]; cases ev <;> rfl

theorem writesSinceCmd_wrs (tr : List EncEvent) (bs : List Byte) :
    writesSinceCmd (tr ++ bs.map EncEvent.wr) = writesSinceCmd tr + bs.length := by
  induction bs generalizing tr with
  | nil => simp
  | cons b bs ih =>
    rw [List.map_cons, show tr ++ .wr b :: bs.map EncEvent.wr = (tr ++ [.wr b]) ++ bs.map EncEvent.wr by simp,
        ih, writesSinceCmd_append]; simp; omega

theorem readsSinceStart_rds (tr : List DecEvent) (bs : List Byte) :
    readsSinceStart (tr ++ bs.map DecEvent.rd) = readsSinceStart tr + bs.length := by
  induction bs generalizing tr with
  | nil => simp
  | cons b bs ih =>
    rw [List.map_cons, show tr ++ .rd b :: bs.map DecEvent.rd = (tr ++ [.rd b]) ++ bs.map DecEvent.rd by simp,
        ih, readsSinceStart_append]; simp; omega

/-- The encoder's half of the invariant. -/
def EncInv (st : EncState) (tr : List EncEvent) : Prop := EncOk st tr ∧ writesSinceCmd tr ≤ 10

/-- The decoder's half of the invariant. -/
def DecInv (st : DecState) (tr : List DecEvent) : Prop := DecOk st tr ∧ readsSinceStart tr ≤ 10

theorem State.inv_iff (s : State) : s.Inv ↔ EncInv s.enc s.encTrace ∧ DecInv s.dec s.decTrace := by
  unfold State.Inv EncInv DecInv; tauto

/-- Every event of the encoder keeps its half. -/
theorem encFire_keeps_inv {st ev st' tr} (h : EncInv st tr) (hf : encFire st ev = some st') :
    EncInv st' (tr ++ [ev]) := by
  obtain ⟨h, hw⟩ := h
  cases ev with
  | cmd v =>
    cases st <;> simp [encFire] at hf
    subst hf
    exact ⟨⟨v, 0, tr, by have := encLen_pos v; omega, by simp, by simp⟩, by simp [writesSinceCmd_append]⟩
  | wr b =>
    cases st <;> simp [encFire] at hf
    rename_i rem
    obtain ⟨rfl, hf⟩ := hf
    obtain ⟨v, k, before, hk, rfl, htr⟩ := h
    have hg := encBytes_getElem v k hk
    have hl := encBytes_length v
    have h10 := encLen_le_ten v
    have htr' : tr ++ [.wr (encByte (v >>> (7*k)))] = before ++
        .cmd v :: ((encBytes v).take (k+1)).map EncEvent.wr := by
      rw [htr, List.take_add_one, hg]; simp
    have hcount : writesSinceCmd tr = k := by
      rw [htr, show before ++ .cmd v :: ((encBytes v).take k).map EncEvent.wr = (before ++ [.cmd v]) ++
          ((encBytes v).take k).map EncEvent.wr by simp, writesSinceCmd_wrs, writesSinceCmd_append]
      simp; omega
    refine ⟨?_, by rw [writesSinceCmd_append]; simp; omega⟩
    rw [htr']
    have hs := shifted_ge_iff v k hk
    by_cases hb : 128 ≤ (v >>> (7 * k)).toNat
    · have hb' := (le_iff_toNat _).2 hb
      rw [if_pos hb'] at hf; subst hf
      exact ⟨v, k+1, before, hs.1 hb, by rw [← BitVec.shiftRight_add]; congr 1, rfl⟩
    · have hb' := mt (le_iff_toNat _).1 hb
      rw [if_neg hb'] at hf; subst hf
      refine ⟨v, before, ?_⟩
      have : k + 1 = encLen v := by have := mt hs.2 hb; omega
      rw [List.take_of_length_le (by omega)]
  | wrfail e =>
    cases st <;> simp [encFire, EncState.raise] at hf
    subst hf
    obtain ⟨v, k, before, hk, rfl, htr⟩ := h
    exact ⟨⟨v, k, before, hk, by rw [htr]; simp⟩, by rw [writesSinceCmd_append]; exact hw⟩
  | res r =>
    refine ⟨?_, by rw [writesSinceCmd_append]; exact hw⟩
    cases st <;> simp [encFire, EncState.result, EncState.handOver] at hf <;> (rw [← hf.2]; trivial)

/-- Every event of the decoder keeps its half. -/
theorem decFire_keeps_inv {st ev st' tr} (h : DecInv st tr) (hf : decFire st ev = some st') :
    DecInv st' (tr ++ [ev]) := by
  obtain ⟨h, hw⟩ := h
  cases ev with
  | start =>
    cases st <;> simp [decFire] at hf
    subst hf
    exact ⟨⟨[], tr, by simp, by simp, by simp [accFrom], by simp⟩, by simp [readsSinceStart_append]⟩
  | rd b =>
    cases st <;> simp [decFire] at hf
    rename_i n acc
    obtain ⟨bs, before, hl, hc, rfl, htr⟩ := h
    have hn := n.isLt
    have htr' : tr ++ [.rd b] = before ++ .start :: (bs ++ [b]).map DecEvent.rd := by
      rw [htr]; simp
    have hcount : readsSinceStart tr = bs.length := by
      rw [htr, show before ++ .start :: bs.map DecEvent.rd = (before ++ [.start]) ++
          bs.map DecEvent.rd by simp, readsSinceStart_rds, readsSinceStart_append]; simp
    refine ⟨?_, by rw [readsSinceStart_append]; simp; omega⟩
    rw [htr']
    by_cases hb : contBit b = true
    · have hc' : ∀ c ∈ bs ++ [b], contBit c = true := by
        intro c hcm; rcases List.mem_append.1 hcm with h | h
        · exact hc c h
        · simp at h; subst h; exact hb
      by_cases h9 : n.val = 9
      · rw [readByte_over hb h9] at hf; subst hf
        exact ⟨bs ++ [b], before, by simp; omega, hc', rfl⟩
      · rw [readByte_cont (m := ⟨n.val+1, by omega⟩) hb rfl] at hf; subst hf
        exact ⟨bs ++ [b], before, by simp; omega, hc', by rw [accFrom_append]; simp [accFrom, accStep, hl], rfl⟩
    · have hb : contBit b = false := by simpa using hb
      rw [readByte_term hb] at hf; subst hf
      refine ⟨bs ++ [b], before, ?_, rfl⟩
      rw [decBytes_eq_accept]
      exact ⟨bs, b, [], rfl, hc, hb, by omega, by rw [accFrom_append]; simp [accFrom, accStep, hl], by simp⟩
  | rdfail e =>
    cases st <;> simp [decFire, DecState.raise] at hf
    subst hf
    rename_i n acc
    obtain ⟨bs, before, hl, hc, rfl, htr⟩ := h
    have hn := n.isLt
    exact ⟨⟨bs, before, by omega, hc, by rw [htr]; simp⟩, by rw [readsSinceStart_append]; exact hw⟩
  | res r =>
    refine ⟨?_, by rw [readsSinceStart_append]; exact hw⟩
    cases st <;> simp [decFire, DecState.result, DecState.handOver] at hf <;> (rw [← hf.2]; trivial)

end Sys2Proof.Machine
end

