-- ==== Sys2Proof/Laws/Parts.lean ====
section
/-! SUPPORT. The two blocks' parts of the state: an operation of one block reads and
writes that block's part alone, and such operations compose. -/

namespace Sys2Proof.Machine

/-- The encoder's part of the state. -/
structure EncPart where
  enc : EncState
  sink : List SnkDrive
  sunk : List Byte
  tr : List EncEvent

/-- The decoder's part of the state. -/
structure DecPart where
  dec : DecState
  source : List SrcDrive
  tr : List DecEvent

def State.encPart (s : State) : EncPart := ⟨s.enc, s.sink, s.sunk, s.encTrace⟩

def State.withEncPart (s : State) (p : EncPart) : State :=
  { s with enc := p.enc, sink := p.sink, sunk := p.sunk, encTrace := p.tr }

def State.decPart (s : State) : DecPart := ⟨s.dec, s.source, s.decTrace⟩

def State.withDecPart (s : State) (p : DecPart) : State :=
  { s with dec := p.dec, source := p.source, decTrace := p.tr }

/-- The update `f` computes the encoder's part from the encoder's part and changes nothing else. -/
def EncoderOnly (f : State → State) : Prop :=
  ∃ g : EncPart → EncPart, ∀ s, f s = s.withEncPart (g s.encPart)

/-- The update `f` computes the decoder's part from the decoder's part and changes nothing else. -/
def DecoderOnly (f : State → State) : Prop :=
  ∃ g : DecPart → DecPart, ∀ s, f s = s.withDecPart (g s.decPart)

theorem EncoderOnly.comp {f g} (hf : EncoderOnly f) (hg : EncoderOnly g) :
    EncoderOnly (fun s => f (g s)) := by
  obtain ⟨a, ha⟩ := hf; obtain ⟨b, hb⟩ := hg
  exact ⟨fun p => a (b p), fun s => by show f (g s) = _; rw [hb s, ha]; rfl⟩

theorem DecoderOnly.comp {f g} (hf : DecoderOnly f) (hg : DecoderOnly g) :
    DecoderOnly (fun s => f (g s)) := by
  obtain ⟨a, ha⟩ := hf; obtain ⟨b, hb⟩ := hg
  exact ⟨fun p => a (b p), fun s => by show f (g s) = _; rw [hb s, ha]; rfl⟩

/-- A choice by the encoder's part. -/
theorem EncoderOnly.choice {F : EncPart → State → State} (h : ∀ p, EncoderOnly (F p)) :
    EncoderOnly (fun s => F s.encPart s) :=
  ⟨fun p => (h p).choose p, fun s => (h s.encPart).choose_spec s⟩

/-- A choice by the decoder's part. -/
theorem DecoderOnly.choice {F : DecPart → State → State} (h : ∀ p, DecoderOnly (F p)) :
    DecoderOnly (fun s => F s.decPart s) :=
  ⟨fun p => (h p).choose p, fun s => (h s.decPart).choose_spec s⟩

theorem EncoderOnly.id : EncoderOnly (fun s => s) := ⟨fun p => p, fun _ => rfl⟩

theorem DecoderOnly.id : DecoderOnly (fun s => s) := ⟨fun p => p, fun _ => rfl⟩

theorem encEvent_encoderOnly (ev) : EncoderOnly (fun s => s.encEvent ev) := by
  refine ⟨fun p => match encFire p.enc ev with
    | some e => ⟨e, p.sink, p.sunk ++ ev.written, p.tr ++ [ev]⟩
    | none => p, fun s => ?_⟩
  simp only [State.encEvent, State.encPart, State.withEncPart]; cases encFire s.enc ev <;> rfl

theorem decEvent_decoderOnly (ev) : DecoderOnly (fun s => s.decEvent ev) := by
  refine ⟨fun p => match decFire p.dec ev with
    | some e => ⟨e, p.source, p.tr ++ [ev]⟩
    | none => p, fun s => ?_⟩
  simp only [State.decEvent, State.decPart, State.withDecPart]; cases decFire s.dec ev <;> rfl

theorem setSink_encoderOnly (f : List SnkDrive → List SnkDrive) :
    EncoderOnly (fun s => s.setSink (f s.sink)) :=
  ⟨fun p => { p with sink := f p.sink }, fun _ => rfl⟩

theorem setSource_decoderOnly (f : List SrcDrive → List SrcDrive) :
    DecoderOnly (fun s => s.setSource (f s.source)) :=
  ⟨fun p => { p with source := f p.source }, fun _ => rfl⟩

theorem offer_encoderOnly (d) : EncoderOnly (fun s => s.offer d) := by
  have := EncoderOnly.choice (F := fun p s => match p.enc with
    | .emit rem => (match d.answer with
      | some .ok => s.encEvent (.wr (encByte rem))
      | some (.fail e) => s.encEvent (.wrfail e)
      | none => s)
    | .idle => s | .done => s | .failed _ => s) (by
      intro p; cases p.enc <;> simp only <;> first | exact EncoderOnly.id | skip
      cases d.answer with
      | none => exact EncoderOnly.id
      | some a => cases a <;> exact encEvent_encoderOnly _)
  exact this

theorem ask_decoderOnly (d) : DecoderOnly (fun s => s.ask d) := by
  have := DecoderOnly.choice (F := fun p s => match p.dec with
    | .reading _ _ => (match d.answer with
      | some (.byte b) => s.decEvent (.rd b)
      | some (.fail e) => s.decEvent (.rdfail e)
      | none => s)
    | .idle => s | .done _ => s | .failed _ => s) (by
      intro p; cases p.dec <;> simp only <;> first | exact DecoderOnly.id | skip
      cases d.answer with
      | none => exact DecoderOnly.id
      | some a => cases a <;> exact decEvent_decoderOnly _)
  exact this

theorem writeLoop_encoderOnly (ds) : EncoderOnly (writeLoop ds) := by
  induction ds with
  | nil => exact EncoderOnly.id
  | cons d ds ih =>
    exact EncoderOnly.choice (F := fun p s => match p.enc with
      | .emit _ => writeLoop ds ((s.setSink ds).offer d) | .idle => s | .done => s | .failed _ => s) (by
      intro p; cases p.enc <;> simp only <;> first | exact EncoderOnly.id | skip
      exact EncoderOnly.comp ih (EncoderOnly.comp (offer_encoderOnly d) (setSink_encoderOnly fun _ => ds)))

theorem readLoop_decoderOnly (ds) : DecoderOnly (readLoop ds) := by
  induction ds with
  | nil => exact DecoderOnly.id
  | cons d ds ih =>
    exact DecoderOnly.choice (F := fun p s => match p.dec with
      | .reading _ _ => readLoop ds ((s.setSource ds).ask d) | .idle => s | .done _ => s | .failed _ => s) (by
      intro p; cases p.dec <;> simp only <;> first | exact DecoderOnly.id | skip
      exact DecoderOnly.comp ih (DecoderOnly.comp (ask_decoderOnly d) (setSource_decoderOnly fun _ => ds)))

theorem writeOn_encoderOnly :
    EncoderOnly State.writeOn :=
  EncoderOnly.choice (F := fun p s => writeLoop p.sink s) (fun _ => writeLoop_encoderOnly _)

theorem readOn_decoderOnly :
    DecoderOnly State.readOn :=
  DecoderOnly.choice (F := fun p s => readLoop p.source s) (fun _ => readLoop_decoderOnly _)

end Sys2Proof.Machine
end

