-- ==== Sys2Proof/Laws/PerInstr.lean ====
section
/-! SUPPORT. Statements about every instruction as syntax, one lemma for each constructor. -/

namespace Sys2Proof.Laws

open Sys2Proof Sys2Proof.Machine

/-- The instruction is well-formed, and its bytes fill the width that its row of the operation table has
(30_encoding.md R88). -/
def WireShape.Statement (i : Instr) : Prop :=
  i.wellFormed = true ∧ (Sys2Proof.encode i).length * 8 = (rowOf i).width

theorem WireShape.encode (v : U64) :
    WireShape.Statement (.encode v) := by
  exact ⟨rfl, rfl⟩

theorem WireShape.decode :
    WireShape.Statement .decode := by
  exact ⟨rfl, rfl⟩

theorem WireShape.varint1 (p0 : U7) :
    WireShape.Statement (.varint1 p0) := by
  constructor
  · simp [Instr.wellFormed, Instr.kind, RowKind.holds, Sys2Proof.encode, formBytes, isEncodedForm]
  · simp [Sys2Proof.encode, formBytes, rowOf]

theorem WireShape.varint2 (p0 p1 : U7) :
    WireShape.Statement (.varint2 p0 p1) := by
  constructor
  · simp [Instr.wellFormed, Instr.kind, RowKind.holds, Sys2Proof.encode, formBytes, isEncodedForm]
  · simp [Sys2Proof.encode, formBytes, rowOf]

theorem WireShape.varint3 (p0 p1 p2 : U7) :
    WireShape.Statement (.varint3 p0 p1 p2) := by
  constructor
  · simp [Instr.wellFormed, Instr.kind, RowKind.holds, Sys2Proof.encode, formBytes, isEncodedForm]
  · simp [Sys2Proof.encode, formBytes, rowOf]

theorem WireShape.varint4 (p0 p1 p2 p3 : U7) :
    WireShape.Statement (.varint4 p0 p1 p2 p3) := by
  constructor
  · simp [Instr.wellFormed, Instr.kind, RowKind.holds, Sys2Proof.encode, formBytes, isEncodedForm]
  · simp [Sys2Proof.encode, formBytes, rowOf]

theorem WireShape.varint5 (p0 p1 p2 p3 p4 : U7) :
    WireShape.Statement (.varint5 p0 p1 p2 p3 p4) := by
  constructor
  · simp [Instr.wellFormed, Instr.kind, RowKind.holds, Sys2Proof.encode, formBytes, isEncodedForm]
  · simp [Sys2Proof.encode, formBytes, rowOf]

theorem WireShape.varint6 (p0 p1 p2 p3 p4 p5 : U7) :
    WireShape.Statement (.varint6 p0 p1 p2 p3 p4 p5) := by
  constructor
  · simp [Instr.wellFormed, Instr.kind, RowKind.holds, Sys2Proof.encode, formBytes, isEncodedForm]
  · simp [Sys2Proof.encode, formBytes, rowOf]

theorem WireShape.varint7 (p0 p1 p2 p3 p4 p5 p6 : U7) :
    WireShape.Statement (.varint7 p0 p1 p2 p3 p4 p5 p6) := by
  constructor
  · simp [Instr.wellFormed, Instr.kind, RowKind.holds, Sys2Proof.encode, formBytes, isEncodedForm]
  · simp [Sys2Proof.encode, formBytes, rowOf]

theorem WireShape.varint8 (p0 p1 p2 p3 p4 p5 p6 p7 : U7) :
    WireShape.Statement (.varint8 p0 p1 p2 p3 p4 p5 p6 p7) := by
  constructor
  · simp [Instr.wellFormed, Instr.kind, RowKind.holds, Sys2Proof.encode, formBytes, isEncodedForm]
  · simp [Sys2Proof.encode, formBytes, rowOf]

theorem WireShape.varint9 (p0 p1 p2 p3 p4 p5 p6 p7 p8 : U7) :
    WireShape.Statement (.varint9 p0 p1 p2 p3 p4 p5 p6 p7 p8) := by
  constructor
  · simp [Instr.wellFormed, Instr.kind, RowKind.holds, Sys2Proof.encode, formBytes, isEncodedForm]
  · simp [Sys2Proof.encode, formBytes, rowOf]

theorem WireShape.varint10 (p0 p1 p2 p3 p4 p5 p6 p7 p8 p9 : U7) :
    WireShape.Statement (.varint10 p0 p1 p2 p3 p4 p5 p6 p7 p8 p9) := by
  constructor
  · simp [Instr.wellFormed, Instr.kind, RowKind.holds, Sys2Proof.encode, formBytes, isEncodedForm]
  · simp [Sys2Proof.encode, formBytes, rowOf]

theorem WireShape.toolong (p0 p1 p2 p3 p4 p5 p6 p7 p8 p9 : U7) :
    WireShape.Statement (.toolong p0 p1 p2 p3 p4 p5 p6 p7 p8 p9) := by
  constructor
  · simp [Instr.wellFormed, Instr.kind, RowKind.holds, Sys2Proof.encode, isTooLong]
  · simp [Sys2Proof.encode, rowOf]

end Sys2Proof.Laws
end

