-- ==== Sys2Proof/Laws/Step.lean ====
section
/-! SUPPORT. Runs of several steps. -/

namespace Sys2Proof.Machine

theorem runSteps_zero (s : State) : runSteps 0 s = .next s := rfl

theorem core_run_succ (M : Host.Core) (k : Nat) (s : M.State) :
    M.run (k + 1) s =
      match M.step s with
      | .next t => M.run k t
      | .fault r => .fault r
      | .refused r => .refused r := rfl

/-- A run is a step and the rest of the run. -/
theorem runSteps_succ (k : Nat) (s : State) :
    runSteps (k + 1) s =
      match step s with
      | .next t => runSteps k t
      | .fault r => .fault r
      | .refused r => .refused r := by
  refine (core_run_succ Sys2Proof.core k s).trans ?_
  have e : Sys2Proof.core.step s = step s := rfl
  rw [e]
  cases step s <;> rfl

/-- A run that answers a next state goes on from there. -/
theorem runSteps_add (j k : Nat) (s t : State) (h : runSteps j s = .next t) :
    runSteps (j + k) s = runSteps k t := by
  induction j generalizing s with
  | zero =>
    have h : Host.Outcome.next s = Host.Outcome.next t := h
    injection h with h
    rw [h, Nat.zero_add]
  | succ j ih =>
    rw [runSteps_succ] at h
    rw [Nat.add_right_comm, runSteps_succ]
    cases hs : step s with
    | next u => rw [hs] at h; exact ih u h
    | fault r => rw [hs] at h; cases h
    | refused r => rw [hs] at h; cases h

end Sys2Proof.Machine
end

