-- ==== Sys2Proof/Tests/Slice0.lean ====
section
/-! SUPPORT. Tests. The expected results are those of 95_test_vectors.md (vectors T, V, W, X, traces E and S)
and of the examples in the rules; the words are written out from opcode_table.json. -/

namespace Sys2Proof.Tests

open Sys2Proof Sys2Proof.Machine

/-! ## Small states -/

/-- After reset, with a sink that will answer `ds`. -/
def withSink (ds : List SnkDrive) : State := { State.reset with sink := ds }

/-- After reset, with a source that will answer `ds`. -/
def withSource (ds : List SrcDrive) : State := { State.reset with source := ds }

/-- A decoder in `Reading(n)` with the accumulator `acc`. -/
def readingAt (n : Fin 10) (acc : U64) : State := { State.reset with dec := .reading n acc }

/-- An encoder in `Emit` with the remainder `rem`. -/
def emitting (rem : U64) (ds : List SnkDrive) : State := { State.reset with enc := .emit rem, sink := ds }

/-- The decoder's state after a step. -/
def decOf : Host.Outcome State Fault Refusal → Option DecState
  | .next t => some t.dec
  | .fault _ => none
  | .refused _ => none

/-- The encoder's state and the sink's bytes after a step. -/
def encOf : Host.Outcome State Fault Refusal → Option (EncState × List Byte)
  | .next t => some (t.enc, t.sunk)
  | .fault _ => none
  | .refused _ => none

/-- What is left of the source after a step. -/
def sourceOf : Host.Outcome State Fault Refusal → Option (List SrcDrive)
  | .next t => some t.source
  | .fault _ => none
  | .refused _ => none

/-! ## Well-formedness refuses each ill-formed term (30_encoding.md R81, R89, R186) -/

theorem test_form_refuses_no_bytes : isEncodedForm [] = false := by decide

theorem test_form_refuses_eleven_bytes :
    isEncodedForm (List.replicate 10 0x80#8 ++ [0x01#8]) = false := by decide

theorem test_form_refuses_terminator_inside : isEncodedForm [0x01#8, 0x80#8, 0x00#8] = false := by decide

theorem test_form_refuses_open_end : isEncodedForm [0x80#8, 0x80#8] = false := by decide

theorem test_form_refuses_too_long : isEncodedForm (List.replicate 10 0x80#8) = false := by decide

theorem test_too_long_refuses_nine : isTooLong (List.replicate 9 0xFF#8) = false := by decide

theorem test_too_long_refuses_terminator : isTooLong (List.replicate 9 0xFF#8 ++ [0x7F#8]) = false := by decide

theorem test_canonical_refuses_padding : isCanonical [0xAD#8, 0x81#8, 0x00#8] = false := by decide

theorem test_canonical_refuses_tenth_byte : isCanonical (List.replicate 9 0x80#8 ++ [0x03#8]) = false :=
    by decide

theorem test_canonical_accepts_zero : isCanonical [0x00#8] = true := by decide

theorem test_operation_has_no_bytes : RowKind.operation.holds [0x00#8] = false := by decide

theorem test_row_refuses_other_length : (RowKind.form 2).holds [0x00#8] = false := by decide

theorem test_toolong_row_refuses_form : RowKind.tooLong.holds (List.replicate 9 0x80#8 ++ [0x00#8]) = false :=
    by
  decide

/-! ## Every wire row's word, written out bit by bit from the table's `encoding` -/

theorem test_word_varint1 : decodeTableWord 8 0b01111111 = some (.varint1 127#7) := by decide

theorem test_word_varint2 : decodeTableWord 16 0b00000001_10101101 = some (.varint2 45#7 1#7) := by decide

theorem test_word_varint3 :
    decodeTableWord 24 0b00100110_10001110_11100101 = some (.varint3 0x65#7 0x0E#7 0x26#7) := by decide

theorem test_word_varint4 :
    decodeTableWord 32 0b01111111_11111111_11111111_11111111 = some (.varint4 127#7 127#7 127#7 127#7) := by
  decide

theorem test_word_varint5 :
    decodeTableWord 40 0b00001101_11110101_10110110_11111101_11101111 =
      some (.varint5 0x6F#7 0x7D#7 0x36#7 0x75#7 0x0D#7) := by decide

theorem test_word_varint6 :
    decodeTableWord 48 0b00000001_10000000_10000000_10000000_10000000_10000000 =
      some (.varint6 0#7 0#7 0#7 0#7 0#7 1#7) := by decide

theorem test_word_varint7 :
    decodeTableWord 56 0b00000111_10000110_10000101_10000100_10000011_10000010_10000001 =
      some (.varint7 1#7 2#7 3#7 4#7 5#7 6#7 7#7) := by decide

theorem test_word_varint8 :
    decodeTableWord 64 0b01111111_11111111_11111111_11111111_11111111_11111111_11111111_11111111 =
      some (.varint8 127#7 127#7 127#7 127#7 127#7 127#7 127#7 127#7) := by decide

theorem test_word_varint9 :
    decodeTableWord 72 0b00000001_10010001_11010001_10101100_11111000_11001101_10101111_10011011_11101111 =
      some (.varint9 0x6F#7 0x1B#7 0x2F#7 0x4D#7 0x78#7 0x2C#7 0x51#7 0x11#7 0x01#7) := by decide

theorem test_word_varint10 :
    decodeTableWord 80
        0b01000001_10000000_10000000_10000000_10000000_10000000_10000000_10000000_10000000_10000001 =
      some (.varint10 1#7 0#7 0#7 0#7 0#7 0#7 0#7 0#7 0#7 65#7) := by decide

theorem test_word_toolong :
    decodeTableWord 80
        0b10000001_10000000_10000000_10000000_10000000_10000000_10000000_10000000_10000000_10000000 =
      some (.toolong 0#7 0#7 0#7 0#7 0#7 0#7 0#7 0#7 0#7 1#7) := by decide

/-- The rows without bits (log entry 6). -/
theorem test_word_without_bits : decodeTableWord 0 0 = some .decode ∧ encode (.encode 173#64) = [] := by decide

theorem test_incomplete_word_rejected : decode [0x80#8, 0x80#8] = .needMore 2 := by decide

/-! ## ENCODE -/

/-- T5: 173 is written as `0xAD 0x01`. -/
theorem test_encode_173 :
    encOf (exec (.encode 173#64) (withSink [.ready, .quiet, .ready])) = some (.done, [0xAD#8, 0x01#8]) :=
        by decide

/-- X2: the sink accepts one byte and then fails. -/
theorem test_encode_173_fails (e : IoInfo) :
    encOf (exec (.encode 173#64) (withSink [.ready, .fail e])) = some (.failed e, [0xAD#8]) := rfl

/-! ## DECODE -/

/-- W3: the byte after the terminator is left in the stream. -/
theorem test_decode_stops_at_terminator :
    decOf (exec .decode (withSource [.byte 0x7F#8, .byte 0xFF#8])) = some (.done 127#64) ∧
    sourceOf (exec .decode (withSource [.byte 0x7F#8, .byte 0xFF#8])) = some [.byte 0xFF#8] := by decide

/-- W26: a failure at index 9 is IoError, not TooLong. -/
theorem test_decode_fails_at_nine (e : IoInfo) :
    decOf (exec .decode (withSource (List.replicate 9 (.byte 0x80#8) ++ [.fail e]))) =
      some (.failed (.io e)) := rfl

/-! ## The wire rows, each in `Reading(0)` -/

/-- W2. -/
theorem test_varint1 : decOf (exec (.varint1 0x7F#7) (readingAt 0 0#64)) = some (.done 127#64) := by decide

/-- W7: a form that is not canonical. -/
theorem test_varint2 : decOf (exec (.varint2 1#7 0#7) (readingAt 0 0#64)) = some (.done 1#64) := by decide

/-- W4, V37. -/
theorem test_varint3 :
    decOf (exec (.varint3 0x65#7 0x0E#7 0x26#7) (readingAt 0 0#64)) = some (.done 624485#64) := by decide

/-- V19. -/
theorem test_varint4 :
    decOf (exec (.varint4 127#7 127#7 127#7 127#7) (readingAt 0 0#64)) = some (.done 268435455#64) := by decide

/-- V36. -/
theorem test_varint5 :
    decOf (exec (.varint5 0x6F#7 0x7D#7 0x36#7 0x75#7 0x0D#7) (readingAt 0 0#64)) =
      some (.done 0xDEADBEEF#64) := by decide

/-- V24. -/
theorem test_varint6 :
    decOf (exec (.varint6 0#7 0#7 0#7 0#7 0#7 1#7) (readingAt 0 0#64)) = some (.done 0x800000000#64) :=
        by decide

/-- V27. -/
theorem test_varint7 :
    decOf (exec (.varint7 127#7 127#7 127#7 127#7 127#7 127#7 127#7) (readingAt 0 0#64)) =
      some (.done 0x1FFFFFFFFFFFF#64) := by decide

/-- V29. -/
theorem test_varint8 :
    decOf (exec (.varint8 127#7 127#7 127#7 127#7 127#7 127#7 127#7 127#7) (readingAt 0 0#64)) =
      some (.done 0xFFFFFFFFFFFFFF#64) := by decide

/-- V35. -/
theorem test_varint9 :
    decOf (exec (.varint9 0x6F#7 0x1B#7 0x2F#7 0x4D#7 0x78#7 0x2C#7 0x51#7 0x11#7 0x01#7) (readingAt 0 0#64)) =
      some (.done 0x0123456789ABCDEF#64) := by decide

/-- W17: of the tenth byte's payload only bit 0 is kept. -/
theorem test_varint10 :
    decOf (exec (.varint10 0#7 0#7 0#7 0#7 0#7 0#7 0#7 0#7 0#7 0x7F#7) (readingAt 0 0#64)) =
      some (.done 0x8000000000000000#64) := by decide

/-- W22. -/
theorem test_toolong :
    decOf (exec (.toolong 0#7 0#7 0#7 0#7 0#7 0#7 0#7 0#7 0#7 1#7) (readingAt 0 0#64)) =
      some (.failed .tooLong) := by decide

/-! ## The step and the placed words -/

theorem test_step_runs_placed_row :
    decOf (step (State.reset.withFetchWord 16 0x01AD)) = some (.done 173#64) := by decide

theorem test_step_runs_placed_toolong :
    decOf (step (State.reset.withFetchWord 80 0xFFFFFFFFFFFFFFFFFFFF)) = some (.failed .tooLong) := by decide

theorem test_step_runs_call :
    encOf (step { withSink [.ready] with agenda := [.encode 0#64] }) = some (.done, [0x00#8]) := by decide

/-- Log entry 22: a wire turn that reaches the cap inside the row leaves the unread byte without its wait. -/
theorem test_wire_turn_drops_wait_before_unread_byte :
    sourceOf (step { readingAt 9 0#64 with source := [.byte 0x80#8, .quiet, .byte 0x01#8], agenda := [.wire] }) =
      some [.byte 0x01#8] := by decide

/-- R34, R64: a clock edge takes nothing behind the byte it consumes. -/
theorem test_edge_keeps_wait_before_unread_byte :
    sourceOf (step { readingAt 9 0#64 with
      source := [.byte 0x80#8, .quiet, .byte 0x01#8]
      agenda := [.env (.edgeDec ⟨false, false, false⟩)] }) = some [.quiet, .byte 0x01#8] := by decide

/-- S1, an edge in `Emit` with `snk_ready` and `snk_fail` both 1: the failure wins. -/
theorem test_failure_wins (e : IoInfo) :
    ((emitting 300#64 [.both e]).encClock ⟨false, false, 0#64, false⟩).enc = .failed e := rfl

/-! ## Witnesses: a concrete state and operands that meet the hypotheses of each statement, clause by clause -/

/-- A state of both blocks in mid-operation, as a run from reset makes it (traces E1 and E3). -/
def busy : State :=
  { State.reset with
    enc := .emit 2#64
    dec := .reading 1 0x2D#64
    sunk := [0xAC#8]
    encTrace := [.cmd 300#64, .wr 0xAC#8]
    decTrace := [.start, .rd 0xAD#8] }

theorem busy_inv : busy.Inv :=
  ⟨⟨300#64, 1, [], by decide, by decide, by decide⟩, ⟨[0xAD#8], [], rfl, by decide, by decide, by decide⟩,
    by decide, by decide⟩

theorem witness_ByteHasContinuationBitAndPayload : contBit 0x80#8 = true ∧ contBit 0x7F#8 = false := by decide

theorem witness_EncodedFormIsContinuationsThenTerminator :
    isEncodedForm [0x80#8, 0x01#8] = true ∧ isEncodedForm (List.replicate 9 0x80#8 ++ [0x01#8]) = true ∧
    [0x80#8, 0x01#8][1]? = some 0x01#8 ∧ isTooLong (List.replicate 10 0xFF#8) = true := by decide

theorem witness_DecodingAnEncodedRowGivesItBack : (Instr.varint1 0#7).kind ≠ .operation := by decide

theorem witness_EncodingADecodedRowGivesItsBytes :
    decode [0xAD#8, 0x01#8, 0xFF#8] = .form (.varint2 45#7 1#7) [0xFF#8] := by decide

theorem witness_ExactlyOneWireRowMatches : 10 ≤ (List.replicate 10 0x80#8 : List Byte).length := by decide

theorem witness_DecAcceptsRowsWithTheirValue :
    (Instr.varint1 0#7).kind = .form 1 ∧ (Instr.varint10 0 0 0 0 0 0 0 0 0 127).kind = .form 10 ∧
      (Instr.toolong 0 0 0 0 0 0 0 0 0 0).kind = .tooLong := by decide

theorem witness_ByteHoldsItsSevenValueBits :
    (encBytes 0#64)[0]? = some 0x00#8 ∧ (encBytes 0xFFFFFFFFFFFFFFFF#64)[9]? = some 0x01#8 := by decide

theorem witness_LengthFormulaGivesTheLengthTable : 1 ≤ 1 ∧ 1 ≤ 10 ∧ 10 ≤ 10 := by decide

theorem witness_EncodingRecursionAndClosedForm :
    (127#64).toNat < 128 ∧ 128 ≤ (128#64).toNat ∧ 1 < encLen 128#64 ∧ 128#64 ≠ 0#64 ∧
      2 ^ 63 ≤ (0x8000000000000000#64).toNat := by decide

theorem witness_NoShorterFormDecodesToTheValue :
    1 < encLen 128#64 ∧ decBytes [0x81#8, 0x00#8] = .accept 1#64 2 := by decide

theorem witness_LiteralVectorsHoldInBothDirections :
    (4294967295#64, [0xFF#8, 0xFF#8, 0xFF#8, 0xFF#8, 0x0F#8]) ∈
      [(0#64, [0x00#8]), (1#64, [0x01#8]), (4#64, [0x04#8]), (128#64, [0x80#8, 0x01#8]),
      (173#64, [0xAD#8, 0x01#8]), (1024#64, [0x80#8, 0x08#8]),
      (4294967295#64, [0xFF#8, 0xFF#8, 0xFF#8, 0xFF#8, 0x0F#8])] := by decide

theorem witness_ReencodingGivesExactlyCanonicalForms :
    decBytes [0x80#8, 0x00#8] = .accept 0#64 2 ∧ decBytes [0x00#8] = .accept 0#64 1 := by decide

theorem witness_NoFormIsAPrefixOfAnother :
    isEncodedForm [0x80#8, 0x01#8] = true ∧ [0x80#8, 0x01#8].isPrefixOf [0x80#8, 0x01#8] = true ∧
      [0x80#8, 0x01#8].isPrefixOf [0x80#8, 0x01#8, 0x00#8] = true := by decide

theorem witness_LargerValueIsNeverShorter : (127#64).toNat < (128#64).toNat := by decide

theorem witness_AccumulateAddsThePayloadAtItsPlace :
    (0#64).toNat < 2 ^ (7 * (0 : Fin 10).val) ∧ (0 : Fin 10).val ≤ 8 ∧
    (0x23456789ABCDEF#64).toNat < 2 ^ (7 * (8 : Fin 10).val) ∧ (8 : Fin 10).val ≤ 8 ∧
    (0x7FFFFFFFFFFFFFFF#64).toNat < 2 ^ (7 * (9 : Fin 10).val) := by decide

theorem witness_TenthByteKeepsOnlyPayloadBitZero : contBit 0x00#8 = false ∧ contBit 0x7F#8 = false := by decide

theorem witness_TenContinuationsAreTooLongFewerAreNot :
    (List.replicate 10 0xFF#8 : List Byte).length = 10 ∧ (∀ b ∈ (List.replicate 10 0xFF#8 : List Byte),
        contBit b = true) ∧
    (List.replicate 9 0xFF#8 : List Byte).length ≤ 9 ∧ ([] : List Byte).length ≤ 9 ∧ contBit 0x00#8 = false :=
        by
  decide

theorem witness_OfferedByteIsEncByteOfTheRemainder :
    128 ≤ (128#64).toNat ∧ (127#64).toNat < 128 ∧ (emitting 300#64 [.quiet]).enc = .emit 300#64 ∧
    (emitting 300#64 [.quiet]).sink = .quiet :: [] := by decide

theorem witness_EncodeWritesAllOfEncAndEndsDone :
    (withSink [.quiet, .ready, .ready]).enc = .idle ∧
    (withSink [.quiet, .ready, .ready]).sinkAnswers.take (encLen 173#64) =
      List.replicate (encLen 173#64) .ok := by decide

/-- The first write and the last. -/
theorem witness_EncodeFailedWriteKeepsThePrefixAndRaisesIo (e : IoInfo) :
    (withSink [.fail e]).enc = .idle ∧ 0 < encLen 173#64 ∧ 1 < encLen 173#64 ∧
    (withSink [.fail e]).sinkAnswers.take 1 = List.replicate 0 .ok ++ [.fail e] ∧
    (withSink [.ready, .fail e]).sinkAnswers.take 2 = List.replicate 1 .ok ++ [.fail e] :=
  ⟨rfl, by decide, by decide, rfl, rfl⟩

theorem witness_EncodeWaitsInEmitForASilentSink :
    (withSink [.ready]).enc = .idle ∧ 1 < encLen 300#64 ∧ (withSink [.ready]).sinkAnswers =
        List.replicate 1 .ok ∧
    (⟨false, false, 0#64, false⟩ : EncEdge).rst = false ∧ (⟨true, false, 0#64, false⟩ : EncEdge).rst = true ∧
    ({ State.reset with enc := .done } : State).enc.result.isSome = true := by decide

theorem witness_EncodeAlwaysWritesAPrefixOfEnc : State.reset.enc = .idle := by decide

theorem witness_DecodeReadsTheFormAndEndsDone :
    (withSource [.quiet, .byte 0xAD#8, .byte 0x01#8]).dec = .idle ∧
    decBytes (withSource [.quiet, .byte 0xAD#8, .byte 0x01#8]).frontBytes = .accept 173#64 2 := by decide

/-- Ten continuation bytes at the front of a source. -/
def tenBytes : State := withSource (List.replicate 10 (.byte 0xFF#8) ++ [.byte 0x00#8])

theorem witness_DecodeOfTenContinuationsRaisesTooLong :
    tenBytes.dec = .idle ∧ (List.replicate 10 0xFF#8 : List Byte).length = 10 ∧
    tenBytes.sourceAnswers = (List.replicate 10 0xFF#8).map SrcAnswer.byte ++ [.byte 0x00#8] ∧
    decOf (exec .decode tenBytes) = some (.failed .tooLong) := by decide

/-- The first read and the tenth. -/
theorem witness_DecodeFailedReadRaisesIo (e : IoInfo) :
    (withSource [.fail e]).dec = .idle ∧ ([] : List Byte).length ≤ 9 ∧
        (List.replicate 9 0x80#8 : List Byte).length ≤ 9 ∧
    (withSource [.fail e]).sourceAnswers = ([] : List Byte).map SrcAnswer.byte ++ .fail e :: [] ∧
    (withSource (List.replicate 9 (.byte 0x80#8) ++ [.fail e])).sourceAnswers =
      (List.replicate 9 0x80#8).map SrcAnswer.byte ++ .fail e :: [] ∧
    decOf (exec .decode (withSource [.fail e])) = some (.failed (.io e)) :=
  ⟨rfl, by decide, by decide, rfl, rfl, rfl⟩

theorem witness_DecodeWaitsInReadingForASilentSource :
    (withSource [.byte 0xAD#8]).dec = .idle ∧ [0xAD#8].length = (1 : Fin 10).val ∧ contBit 0xAD#8 = true ∧
    (withSource [.byte 0xAD#8]).sourceAnswers = [0xAD#8].map SrcAnswer.byte ∧
    (withSource (List.replicate 9 (.byte 0x80#8))).sourceAnswers =
      (List.replicate 9 0x80#8).map SrcAnswer.byte := by decide

theorem witness_VarintRowsEndDoneWithTheirValue : (readingAt 0 0#64).dec = .reading 0 0#64 := by decide

theorem witness_ToolongRowEndsFailedAfterTenBytes : (readingAt 0 5#64).dec = .reading 0 5#64 := by decide

theorem witness_WireRowIsReadOnFromAnyIndex :
    (Instr.varint2 1#7 2#7).kind ≠ .operation ∧ (readingAt 9 0#64).dec = .reading 9 0#64 ∧
      (readingAt 8 0#64).dec = .reading 8 0#64 := by decide

theorem witness_WireRowWaitsOutsideReading :
    (Instr.varint1 0#7).kind ≠ .operation ∧ State.reset.dec = .idle ∧
    ({ State.reset with dec := .done 5#64 } : State).dec = .done 5#64 ∧
    ({ State.reset with dec := .failed .tooLong } : State).dec = .failed .tooLong := by decide

theorem witness_DecodeAndWireRowsLeaveTheEncoderAlone :
    (∀ v, Instr.decode ≠ .encode v) ∧ (∀ v, Instr.varint1 0#7 ≠ .encode v) ∧
    decOf (exec (.varint1 0#7) (readingAt 0 0#64)) = some (.done 0#64) :=
  ⟨fun _ => nofun, fun _ => nofun, by decide⟩

theorem witness_OperationIsNotTakenOutsideIdle : busy.enc ≠ .idle ∧ busy.dec ≠ .idle := by decide

theorem witness_OperationsStartFromTheirOwnFixedState :
    State.reset.enc = .idle ∧ State.reset.dec = .idle ∧ (⟨false, true, false⟩ : DecEdge).startValid = true ∧
    (⟨false, true, 300#64, false⟩ : EncEdge).cmdValid = true := by decide

theorem witness_OutcomeIgnoresEarlierOperations :
    State.reset.enc = .idle ∧ ({ State.reset with sunk := [0xAC#8], tick := 7 } : State).enc = .idle ∧
    State.reset.sink = ({ State.reset with sunk := [0xAC#8], tick := 7 } : State).sink ∧
    State.reset.source = ({ State.reset with tick := 7 } : State).source := by decide

theorem witness_SinkEdgeWritesOneByteOrFails (err : IoInfo) :
    (emitting 300#64 [.ready]).enc = .emit 300#64 ∧ (emitting 300#64 [.ready]).sink = .ready :: [] ∧
    (emitting 300#64 [.fail err]).sink = .fail err :: [] ∧ 128 ≤ (128#64).toNat :=
  ⟨rfl, rfl, rfl, by decide⟩

theorem witness_SourceEdgeConsumesOneByteOrFails (err : IoInfo) :
    (readingAt 9 0#64).dec = .reading 9 0#64 ∧ (readingAt 8 0#64).dec = .reading 8 0#64 ∧
    ({ readingAt 9 0#64 with source := [.byte 0x80#8] } : State).source = .byte 0x80#8 :: [] ∧
    ({ readingAt 9 0#64 with source := [.both 0x80#8 err] } : State).source = .both 0x80#8 err :: [] ∧
    contBit 0x80#8 = true ∧ contBit 0x7F#8 = false ∧ (8 : Fin 10).val < 9 ∧ (9 : Fin 10).val = 9 :=
  ⟨rfl, rfl, rfl, rfl, by decide, by decide, by decide, rfl⟩

theorem witness_ByteEventsMoveTheDecoder :
    (1 : Fin 10).val = (0 : Fin 10).val + 1 ∧ (9 : Fin 10).val = (8 : Fin 10).val + 1 ∧
    (0x80#8).getLsbD 7 = true ∧ (0x7F#8).getLsbD 7 = false ∧
    (readingAt 9 0#64).dec = .reading 9 0#64 ∧
    ({ readingAt 9 0#64 with source := [.byte 0x80#8] } : State).source = .byte 0x80#8 :: [] := by decide

theorem witness_FailureThenContinuationThenIndexIsTheOrder :
    contBit 0x00#8 = false ∧ contBit 0x80#8 = true := by decide

theorem witness_ResultIsHeldUntilTakenThenIdle :
    ({ State.reset with enc := .done } : State).enc.result = some .ok ∧
    ({ State.reset with dec := .failed .tooLong } : State).dec.result = some (.err .tooLong) := by decide

theorem witness_ResetForcesIdleAndNothingElse :
    (⟨true, true, 5#64, true⟩ : EncEdge).rst = true ∧ (⟨true, true, true⟩ : DecEdge).rst = true := by decide

theorem witness_OutputsShowThePhaseAndTheOutcome (e : IoInfo) :
    ({ State.reset with enc := .done } : State).enc = .done ∧
    ({ State.reset with enc := .failed e } : State).enc = .failed e ∧
    ({ State.reset with dec := .done 5#64 } : State).dec = .done 5#64 ∧
    ({ State.reset with dec := .failed .tooLong } : State).dec = .failed .tooLong ∧
    ({ State.reset with dec := .failed (.io e) } : State).dec = .failed (.io e) :=
  ⟨rfl, rfl, rfl, rfl, rfl⟩

theorem witness_StepRunsTheDecodedWireRow :
    (State.reset.withFetchWord 16 0x01AD).dec = .reading 0 0#64 ∧
    (State.reset.withFetchWord 16 0x01AD).agenda = .wire :: [] ∧
    decode (State.reset.withFetchWord 16 0x01AD).frontBytes =
      .form (.varint2 45#7 1#7) (List.replicate 8 0x00#8) ∧
    (Instr.varint2 45#7 1#7).wellFormed = true := by decide

theorem witness_StepRunsTheCalledOperation :
    ({ State.reset with agenda := [.encode 5#64] } : State).agenda = .encode 5#64 :: [] ∧
    ({ State.reset with agenda := [.decode] } : State).agenda = .decode :: [] ∧
    ({ State.reset with agenda := [.env .takeDec] } : State).agenda = .env .takeDec :: [] ∧
    State.reset.agenda = [] := by decide

theorem witness_StepKeepsBlocksInAgreementWithTheirTraces :
    busy.Inv ∧ decOf (step busy) = some (.reading 1 0x2D#64) := ⟨busy_inv, by decide⟩

theorem witness_AccumulatorHasNoBitsAboveItsIndex : busy.Inv ∧ busy.dec = .reading 1 0x2D#64 :=
  ⟨busy_inv, rfl⟩

/-- Two machines that agree on the encoder, and two that agree on the decoder. -/
theorem witness_BlocksDoNotInfluenceEachOther :
    State.reset.agenda = (readingAt 3 0#64).agenda ∧ SameEncoder State.reset (readingAt 3 0#64) ∧
    SameDecoder State.reset (emitting 300#64 []) ∧ State.reset.agenda = (emitting 300#64 []).agenda ∧
    runSteps 1 State.reset = .next { State.reset with tick := 1 } ∧
    runSteps 1 (readingAt 3 0#64) = .next { readingAt 3 0#64 with tick := 1 } :=
  ⟨rfl, ⟨rfl, rfl, rfl, rfl⟩, ⟨rfl, rfl, rfl⟩, rfl, rfl, rfl⟩

theorem witness_WrittenBytesAndEventsAreNeverTakenBack :
    step busy = .next { busy with tick := 1 } := rfl

theorem witness_EncoderEdgesAgreeWithTheOperation : (withSink [.ready, .quiet]).enc = .idle := by decide

theorem witness_DecoderEdgesAgreeWithTheOperation : (withSource [.byte 0x80#8]).dec = .idle := by decide

/-- An encoder with a sink and a caller that are always ready. -/
def promptEncode (v : U64) : State :=
  { State.reset with
    sink := List.replicate (encLen v) .ready
    agenda := cmdEdge v :: List.replicate (encLen v + 1) takeEncEdge }

theorem witness_EncodeTakesLenPlusTwoEdges :
    (promptEncode 300#64).enc = .idle ∧
    (promptEncode 300#64).sink = List.replicate (encLen 300#64) .ready ++ [] ∧
    (promptEncode 300#64).agenda = cmdEdge 300#64 :: List.replicate (encLen 300#64 + 1) takeEncEdge ++ [] ∧
    1 < encLen 300#64 := by decide

theorem witness_AnsweredOperationsEndWithinElevenEdges :
    (List.replicate 10 SnkDrive.ready).length = 10 ∧ (∀ d ∈ List.replicate 10 SnkDrive.ready,
        d.answer.isSome = true) ∧
    (List.replicate 10 (SrcDrive.byte 0xFF#8)).length = 10 ∧
    ∀ d ∈ List.replicate 10 (SrcDrive.byte 0xFF#8), d.answer.isSome = true := by decide

theorem witness_DecodingWhatEncodeWroteGivesTheValue :
    (withSink [.ready, .ready]).enc = .idle ∧
    encOf (exec (.encode 173#64) (withSink [.ready, .ready])) =
      some (.done, (withSink [.ready, .ready]).sunk ++ [0xAD#8, 0x01#8]) ∧
    (withSource [.byte 0xAD#8, .quiet, .byte 0x01#8]).dec = .idle ∧
    (withSource [.byte 0xAD#8, .quiet, .byte 0x01#8]).sourceAnswers =
      [0xAD#8, 0x01#8].map SrcAnswer.byte ++ [] := by decide

theorem witness_NoOperationMovesMoreThanTenBytes :
    busy.Inv ∧ runSteps 1 busy = .next { busy with tick := 1 } := ⟨busy_inv, rfl⟩

/-- Two values written one after another, and the two calls that read them back. -/
def twoDecodes : State :=
  { State.reset with
    source := ([300#64, 5#64].flatMap encBytes).map SrcDrive.byte
    agenda := [300#64, 5#64].flatMap (fun _ => [.decode, .env .takeDec]) }

theorem witness_SuccessiveDecodesReadBackSuccessiveEncodes :
    twoDecodes.dec = .idle ∧ twoDecodes.source = ([300#64, 5#64].flatMap encBytes).map SrcDrive.byte ++ [] ∧
    twoDecodes.agenda = [300#64, 5#64].flatMap (fun _ => [.decode, .env .takeDec]) ++ [] := by decide

end Sys2Proof.Tests
end

/-! PROOFS. 10_state.md: an operation's outcome is fixed by its own inputs (R21). Each loop, from a given phase and on
a given list of answers, makes one and the same move in every state: a new phase, a rest of the stream, and what is
appended to the bytes and the events. -/

namespace Sys2Proof.Machine

/-! ## The encoder's loop makes one move -/

/-- The encoder moves to `e` and its sink to `ds`; `bs` are written and `evs` observed. -/
def State.moveEnc (s : State) (e : EncState) (ds : List SnkDrive) (bs : List Byte) (evs : List EncEvent) : State :=
  { s with enc := e, sink := ds, sunk := s.sunk ++ bs, encTrace := s.encTrace ++ evs }

theorem State.moveEnc_self (s : State) : s.moveEnc s.enc s.sink [] [] = s := by
  simp [State.moveEnc]

theorem State.moveEnc_moveEnc (s : State) (e e' : EncState) (ds ds' : List SnkDrive) (bs bs' : List Byte)
    (evs evs' : List EncEvent) :
    (s.moveEnc e ds bs evs).moveEnc e' ds' bs' evs' = s.moveEnc e' ds' (bs ++ bs') (evs ++ evs') := by
  simp [State.moveEnc]

/-- Offering a byte to the drive `d`: the move is fixed by the value that is left and by the answer (R113, R114,
R119). -/
theorem offer_eq_moveEnc (d : SnkDrive) (rem : U64) :
    ∃ e bs evs, ∀ (s : State) (ds : List SnkDrive), s.enc = .emit rem →
      (s.setSink ds).offer d = s.moveEnc e ds bs evs := by
  cases hd : d.answer with
  | none =>
    refine ⟨.emit rem, [], [], fun s ds hs => ?_⟩
    rw [offer_none _ _ hd, ← hs]
    exact (State.moveEnc_self (s.setSink ds)).symm
  | some a =>
    cases a with
    | ok => exact ⟨_, _, _, fun s ds hs => offer_ok (s.setSink ds) rem hs d hd⟩
    | fail err =>
      refine ⟨.failed err, [], [.wrfail err], fun s ds hs => ?_⟩
      rw [offer_fail (s.setSink ds) rem hs d err hd]
      simp [State.moveEnc, State.setSink]

/-- The encoder's loop from phase `st` on the answers `ds`: one move for every state (R21). -/
theorem writeLoop_eq_moveEnc (ds : List SnkDrive) (st : EncState) :
    ∃ e rest bs evs, ∀ s : State, s.enc = st → s.sink = ds → writeLoop ds s = s.moveEnc e rest bs evs := by
  induction ds generalizing st with
  | nil => exact ⟨st, [], [], [], fun s he hs => by rw [← he, ← hs, State.moveEnc_self, hs]; rfl⟩
  | cons d ds ih =>
    by_cases hst : ∃ rem, st = .emit rem
    · obtain ⟨rem, rfl⟩ := hst
      obtain ⟨e, bs, evs, hoffer⟩ := offer_eq_moveEnc d rem
      obtain ⟨e', rest, bs', evs', hrest⟩ := ih e
      refine ⟨e', rest, bs ++ bs', evs ++ evs', fun s he _ => ?_⟩
      rw [writeLoop_cons d ds s rem he, hoffer s ds he, hrest _ rfl rfl, State.moveEnc_moveEnc]
    · refine ⟨st, d :: ds, [], [], fun s he hs => ?_⟩
      rw [writeLoop_of_not_emit _ s (fun rem h => hst ⟨rem, he ▸ h⟩), ← he, ← hs, State.moveEnc_self]

/-- ENCODE of `v` taken in `Idle` on the coming answers `ds`: one move for every state (R21). -/
theorem exec_encode_eq_moveEnc (v : U64) (ds : List SnkDrive) :
    ∃ e rest bs evs, ∀ s : State, s.enc = .idle → s.sink = ds →
      exec (.encode v) s = .next (s.moveEnc e rest bs evs) := by
  obtain ⟨e, rest, bs, evs, hloop⟩ := writeLoop_eq_moveEnc ds (.emit v)
  refine ⟨e, rest, bs, .cmd v :: evs, fun s hs hds => ?_⟩
  rw [exec_encode_of_idle v s hs, hds, hloop]
  · simp [State.moveEnc]
  · rfl
  · rfl

/-! ## The decoder's loop makes one move -/

/-- The decoder moves to `d` and its source to `ds`; `evs` are observed. -/
def State.moveDec (s : State) (d : DecState) (ds : List SrcDrive) (evs : List DecEvent) : State :=
  { s with dec := d, source := ds, decTrace := s.decTrace ++ evs }

theorem State.moveDec_self (s : State) : s.moveDec s.dec s.source [] = s := by
  simp [State.moveDec]

theorem State.moveDec_moveDec (s : State) (d d' : DecState) (ds ds' : List SrcDrive) (evs evs' : List DecEvent) :
    (s.moveDec d ds evs).moveDec d' ds' evs' = s.moveDec d' ds' (evs ++ evs') := by
  simp [State.moveDec]

/-- Asking the drive `d` for a byte: the move is fixed by the index, the accumulator and the answer (R143 to R147,
R151). -/
theorem ask_eq_moveDec (d : SrcDrive) (n : Fin 10) (acc : U64) :
    ∃ st evs, ∀ (s : State) (ds : List SrcDrive), s.dec = .reading n acc →
      (s.setSource ds).ask d = s.moveDec st ds evs := by
  cases hd : d.answer with
  | none =>
    refine ⟨.reading n acc, [], fun s ds hs => ?_⟩
    rw [ask_none _ _ hd, ← hs]
    exact (State.moveDec_self (s.setSource ds)).symm
  | some a =>
    cases a with
    | byte b => exact ⟨_, _, fun s ds hs => ask_byte (s.setSource ds) n acc hs d b hd⟩
    | fail err => exact ⟨_, _, fun s ds hs => ask_fail (s.setSource ds) n acc hs d err hd⟩

/-- The decoder's loop from phase `st` on the answers `ds`: one move for every state (R21). -/
theorem readLoop_eq_moveDec (ds : List SrcDrive) (st : DecState) :
    ∃ d rest evs, ∀ s : State, s.dec = st → s.source = ds → readLoop ds s = s.moveDec d rest evs := by
  induction ds generalizing st with
  | nil => exact ⟨st, [], [], fun s hst hs => by rw [← hst, ← hs, State.moveDec_self, hs]; rfl⟩
  | cons d ds ih =>
    by_cases hst : ∃ n acc, st = .reading n acc
    · obtain ⟨n, acc, rfl⟩ := hst
      obtain ⟨st, evs, hask⟩ := ask_eq_moveDec d n acc
      obtain ⟨st', rest, evs', hrest⟩ := ih st
      refine ⟨st', rest, evs ++ evs', fun s he _ => ?_⟩
      rw [readLoop_cons d ds s n acc he, hask s ds he, hrest _ rfl rfl, State.moveDec_moveDec]
    · refine ⟨st, d :: ds, [], fun s he hs => ?_⟩
      rw [readLoop_of_not_reading _ s (fun n acc h => hst ⟨n, acc, he ▸ h⟩), ← he, ← hs, State.moveDec_self]

/-- DECODE taken in `Idle` on the coming answers `ds`: one move for every state (R21). -/
theorem exec_decode_eq_moveDec (ds : List SrcDrive) :
    ∃ d rest evs, ∀ s : State, s.dec = .idle → s.source = ds →
      exec .decode s = .next (s.moveDec d rest evs) := by
  obtain ⟨d, rest, evs, hloop⟩ := readLoop_eq_moveDec ds (.reading 0 0#64)
  refine ⟨d, rest, .start :: evs, fun s hs hds => ?_⟩
  rw [exec_decode_of_idle s hs, hds, hloop]
  · simp [State.moveDec]
  · rfl
  · rfl

/-- Settles O36: on the same coming answers both states make the one move that
`exec_encode_eq_moveEnc` and `exec_decode_eq_moveDec` give. -/
theorem outcomeIgnoresEarlierOperations : Obligations.OutcomeIgnoresEarlierOperations := by
  refine ⟨fun v s t hs ht hst => ?_, fun s t hs ht hst => ?_⟩
  · obtain ⟨e, rest, bs, evs, hmove⟩ := exec_encode_eq_moveEnc v s.sink
    exact ⟨_, _, bs, evs, hmove s hs rfl, hmove t ht hst.symm, rfl, rfl, rfl, rfl, rfl, rfl⟩
  · obtain ⟨d, rest, evs, hmove⟩ := exec_decode_eq_moveDec s.source
    exact ⟨_, _, evs, hmove s hs rfl, hmove t ht hst.symm, rfl, rfl, rfl, rfl⟩

end Sys2Proof.Machine

/-! PROOFS. 30_encoding.md: the fields of a byte (R80), the encoded forms (R81), the bits and the length of the
canonical encoding (R82, R83), and the one illegal shape (R89, R201). -/

namespace Sys2Proof.Machine

/-! ## The fields of a byte -/

/-- The mask `0x80` selects the continuation bit (R80). -/
theorem contBit_iff_and_mask (b : Byte) : contBit b = true ↔ b &&& 0x80#8 ≠ 0#8 := by
  have hmask : b &&& 0x80#8 = if contBit b = true then 0x80#8 else 0#8 := BitVec.and_twoPow b 7
  by_cases h : contBit b = true <;> simp [hmask, h]

/-- The mask `0x7F` selects the payload (R80). -/
theorem payload_toNat_eq_and_mask (b : Byte) : (payload b).toNat = (b &&& 0x7F#8).toNat := by
  rw [payload_toNat, BitVec.toNat_and]
  exact (Nat.and_two_pow_sub_one_eq_mod b.toNat 7).symm

/-- Settles O1, from the masks and from `contByte_payload` and `termByte_payload`. -/
theorem byteHasContinuationBitAndPayload : Obligations.ByteHasContinuationBitAndPayload := fun b =>
  ⟨contBit_iff_and_mask b, payload_toNat_eq_and_mask b, fun h => (contByte_payload h).symm,
    fun h => (termByte_payload h).symm, fun p => ⟨contByte_toNat p, termByte_toNat p⟩⟩

/-! ## The encoded forms -/

/-- Bytes before the last have continuation bit 1 and the last has 0 exactly when each byte's continuation bit says
whether another byte follows. -/
theorem conts_term_iff_contBit_says_more (cs : List Byte) (b : Byte) :
    ((∀ c ∈ cs, contBit c = true) ∧ contBit b = false) ↔
      ∀ i c, (cs ++ [b])[i]? = some c → (contBit c = true ↔ i + 1 < (cs ++ [b]).length) := by
  rw [List.length_append, List.length_singleton]
  constructor
  · rintro ⟨hcs, hb⟩ i c hc
    by_cases hi : i < cs.length
    · rw [List.getElem?_append_left hi] at hc
      simp [hcs c (List.mem_of_getElem? hc), hi]
    · obtain ⟨hlt, rfl⟩ := List.getElem?_eq_some_iff.1 hc
      have hlast : i = cs.length := by simp at hlt; omega
      subst hlast
      simp [hb]
  · intro hsays
    refine ⟨fun c hc => ?_, ?_⟩
    · obtain ⟨i, hi, rfl⟩ := List.getElem_of_mem hc
      exact (hsays i cs[i] (by rw [List.getElem?_append_left hi, List.getElem?_eq_getElem hi])).2 (by omega)
    · have hlast := hsays cs.length b List.getElem?_concat_length
      simpa using hlast

/-- After continuation bytes the first byte with continuation bit 0 is the terminator. -/
theorem findIdx_conts_term {cs : List Byte} {b : Byte} (hcs : ∀ c ∈ cs, contBit c = true) (hb : contBit b = false) :
    (cs ++ [b]).findIdx (fun c => !contBit c) = cs.length := by
  have hnone : cs.findIdx (fun c => !contBit c) = cs.length :=
    List.findIdx_eq_length_of_false fun c hc => by simp [hcs c hc]
  simp [List.findIdx_append, hnone, List.findIdx_cons, hb]

/-- Settles O2: by `isEncodedForm_iff` a form is continuation bytes and a terminator. -/
theorem encodedFormIsContinuationsThenTerminator : Obligations.EncodedFormIsContinuationsThenTerminator := by
  refine fun bs => ⟨⟨fun h => ?_, ?_⟩, fun h => ?_, fun hlong => ?_⟩
  · obtain ⟨cs, b, rfl, hcs, hb, hlen⟩ := isEncodedForm_iff.1 h
    exact ⟨by simp, by simp; omega, (conts_term_iff_contBit_says_more cs b).1 ⟨hcs, hb⟩⟩
  · rintro ⟨hpos, hlen, hsays⟩
    obtain rfl | ⟨cs, b, rfl⟩ := List.eq_nil_or_concat' bs
    · simp at hpos
    · obtain ⟨hcs, hb⟩ := (conts_term_iff_contBit_says_more cs b).2 hsays
      exact isEncodedForm_iff.2 ⟨cs, b, rfl, hcs, hb, by simp at hlen; omega⟩
  · obtain ⟨cs, b, rfl, hcs, hb, -⟩ := isEncodedForm_iff.1 h
    rw [findIdx_conts_term hcs hb, List.length_append, List.length_singleton]
  · refine Bool.eq_false_iff.2 fun h => ?_
    obtain ⟨cs, b, rfl, -, hb, -⟩ := isEncodedForm_iff.1 h
    simp [isTooLong, hb] at hlong

/-! ## The bits and the length of the canonical encoding -/

/-- The byte on offer holds the value's low seven bits at their own places (40_encoder.md R111). -/
theorem getLsbD_encByte (rem : U64) {j : Nat} (hj : j < 7) : (encByte rem).getLsbD j = rem.getLsbD j := by
  have hbit := congrArg (·.getLsbD j) (payload_encByte rem)
  simpa [payload, low7, hj] using hbit

/-- Settles O9: byte `i` is the byte on offer after `i` shifts (`encBytes_getElem`). -/
theorem byteHoldsItsSevenValueBits : Obligations.ByteHoldsItsSevenValueBits := by
  intro v i b hget
  obtain ⟨hi, -⟩ := List.getElem?_eq_some_iff.1 hget
  rw [encBytes_length] at hi ⊢
  obtain rfl : encByte (v >>> (7 * i)) = b := by simpa [encBytes_getElem v i hi] using hget
  refine ⟨fun j hj => ?_, ?_⟩
  · rw [getLsbD_encByte _ hj, BitVec.getLsbD_ushiftRight]
  · have hcont : (encByte (v >>> (7 * i))).getLsbD 7 = decide (128 ≤ (v >>> (7 * i)).toNat) := contBit_encByte _
    rw [hcont, decide_eq_true_iff]
    exact shifted_ge_iff v i hi

/-- The length table (R83): `Len(v)` is `k` for the values from `2^(7(k-1))`, or from 0 for `k = 1`, to
`2^(7k) - 1`. -/
theorem encLen_eq_iff (v : U64) {k : Nat} (hk : 1 ≤ k) :
    encLen v = k ↔ (k = 1 ∨ 2 ^ (7 * (k - 1)) ≤ v.toNat) ∧ v.toNat < 2 ^ (7 * k) := by
  rw [← encLen_le_iff v k hk]
  have hpos := encLen_pos v
  by_cases hone : k = 1
  · omega
  · have hprev := encLen_le_iff v (k - 1) (by omega)
    omega

/-- Settles O10, from the table `encLen_eq_iff` and `encBytes_length`. -/
theorem lengthFormulaGivesTheLengthTable : Obligations.LengthFormulaGivesTheLengthTable := fun v =>
  ⟨rfl, rfl, bitLength_le_iff v, encLen_pos v, encLen_le_ten v, fun _ hk _ => encLen_eq_iff v hk, encBytes_length v,
    encBytes_length 0#64⟩

/-! ## DECODE on each shape of the source's answers -/

/-- The source's answers are a form, or ten continuation bytes, or at most nine of them and then a failure or
silence. -/
theorem sourceAnswers_shapes (as : List SrcAnswer) :
    (∃ (bs : List Byte) (b : Byte) (more : List SrcAnswer), as = bs.map SrcAnswer.byte ++ .byte b :: more ∧
      (∀ c ∈ bs, contBit c = true) ∧ contBit b = false ∧ bs.length ≤ 9) ∨
    (∃ (bs : List Byte) (more : List SrcAnswer), as = bs.map SrcAnswer.byte ++ more ∧
      (∀ c ∈ bs, contBit c = true) ∧ bs.length = 10) ∨
    (∃ (bs : List Byte) (e : IoInfo) (more : List SrcAnswer), as = bs.map SrcAnswer.byte ++ .fail e :: more ∧
      (∀ c ∈ bs, contBit c = true) ∧ bs.length ≤ 9) ∨
    (∃ bs : List Byte, as = bs.map SrcAnswer.byte ∧ (∀ c ∈ bs, contBit c = true) ∧ bs.length ≤ 9) := by
  obtain ⟨more, has, hmore⟩ := leadBytes_split as
  generalize leadBytes as = lead at has
  subst has
  obtain ⟨bs, b, t, rfl, hbs, hb, hlen⟩ | ⟨bs, b, t, rfl, hbs, hb, hlen⟩ | ⟨hbs, hlen⟩ := byte_shapes 0 lead
  · exact .inl ⟨bs, b, t.map .byte ++ more, by simp, hbs, hb, by simpa using hlen⟩
  · exact .inr (.inl ⟨bs ++ [b], t.map .byte ++ more, by simp, by simpa [or_imp, forall_and, hb] using hbs,
      by simpa using hlen⟩)
  · obtain rfl | ⟨e, r, rfl⟩ := hmore
    · exact .inr (.inr (.inr ⟨lead, by simp, hbs, by simpa using hlen⟩))
    · exact .inr (.inr (.inl ⟨lead, e, r, rfl, hbs, by simpa using hlen⟩))

section
variable (s : State) (bs : List Byte) (hs : s.dec = .idle) (hbs : ∀ c ∈ bs, contBit c = true) (hlen : bs.length ≤ 9)
include hs hbs

/-- DECODE after at most nine continuation bytes: the loop goes on with the rest of the answers. -/
theorem exec_decode_after_conts (as : List SrcAnswer) (has : s.sourceAnswers = bs.map SrcAnswer.byte ++ as) :
    exec .decode s = .next (readLoop (pastAnswers SrcDrive.answer bs.length s.source)
      (s.moveDec (.reading ⟨bs.length, by omega⟩ (accFrom 0 0#64 bs)) (pastAnswers SrcDrive.answer bs.length s.source)
        (.start :: bs.map DecEvent.rd))) ∧
    (pastAnswers SrcDrive.answer bs.length s.source).filterMap SrcDrive.answer = as := by
  obtain ⟨hloop, hrest⟩ := readLoop_conts s.source
    { s with dec := .reading 0 0#64, decTrace := s.decTrace ++ [.start] } 0 ⟨bs.length, by omega⟩ 0#64 bs as rfl rfl
    hbs (by simp) has
  rw [exec_decode_of_idle s hs, hloop]
  exact ⟨by simp [State.readBytes, State.moveDec], hrest⟩

/-- Continuation bytes and then a byte that ends the operation: DECODE consumes them all. -/
theorem exec_decode_of_end (b : Byte) (more : List SrcAnswer)
    (hb : ∀ m acc, readByte ⟨bs.length, by omega⟩ (accFrom 0 0#64 bs) b ≠ .reading m acc)
    (has : s.sourceAnswers = bs.map SrcAnswer.byte ++ .byte b :: more) :
    exec .decode s = .next (s.moveDec (readByte ⟨bs.length, by omega⟩ (accFrom 0 0#64 bs) b)
      (pastAnswers SrcDrive.answer (bs.length + 1) s.source) (.start :: (bs ++ [b]).map DecEvent.rd)) := by
  obtain ⟨hexec, hrest⟩ := exec_decode_after_conts s bs hs hbs hlen _ has
  rw [hexec, readLoop_byte _ _ _ _ b more rfl hb hrest, pastAnswers_add]
  simp [State.readBytes, State.moveDec]

/-- Ten continuation bytes: DECODE consumes them and ends in TooLong (R201). -/
theorem exec_decode_of_tooLong (more : List SrcAnswer) (hten : bs.length = 10)
    (has : s.sourceAnswers = bs.map SrcAnswer.byte ++ more) :
    exec .decode s = .next (s.moveDec (.failed .tooLong) (pastAnswers SrcDrive.answer 10 s.source)
      (.start :: bs.map DecEvent.rd)) := by
  obtain rfl | ⟨cs, b, rfl⟩ := List.eq_nil_or_concat' bs
  · simp at hten
  have hcs : cs.length = 9 := by simpa using hten
  have hover : readByte ⟨cs.length, by omega⟩ (accFrom 0 0#64 cs) b = .failed .tooLong :=
    readByte_over (hbs b (by simp)) hcs
  rw [exec_decode_of_end s cs hs (fun c hc => hbs c (by simp [hc])) hcs.le b more (by simp [hover])
    (by simpa using has), hover, hcs]

include hlen

/-- A form: DECODE ends in `Done` (R144). -/
theorem exec_decode_of_form (b : Byte) (more : List SrcAnswer) (hb : contBit b = false)
    (has : s.sourceAnswers = bs.map SrcAnswer.byte ++ .byte b :: more) :
    exec .decode s = .next (s.moveDec (.done (accFrom 0 0#64 (bs ++ [b])))
      (pastAnswers SrcDrive.answer (bs.length + 1) s.source) (.start :: (bs ++ [b]).map DecEvent.rd)) := by
  have hdone : readByte ⟨bs.length, by omega⟩ (accFrom 0 0#64 bs) b = .done (accFrom 0 0#64 (bs ++ [b])) := by
    rw [readByte_term hb, accStep_eq_accFrom, accFrom_append, Nat.zero_add]
  rw [exec_decode_of_end s bs hs hbs hlen b more (by simp [hdone]) has, hdone]

/-- At most nine continuation bytes and then a failure: DECODE ends in `Io(e)` (R202). -/
theorem exec_decode_of_fail (e : IoInfo) (more : List SrcAnswer)
    (has : s.sourceAnswers = bs.map SrcAnswer.byte ++ .fail e :: more) :
    exec .decode s = .next (s.moveDec (.failed (.io e)) (pastAnswers SrcDrive.answer (bs.length + 1) s.source)
      (.start :: (bs.map DecEvent.rd ++ [.rdfail e]))) := by
  obtain ⟨hexec, hrest⟩ := exec_decode_after_conts s bs hs hbs hlen _ has
  rw [hexec, readLoop_fail _ _ _ _ e more rfl hrest, pastAnswers_add]
  simp [State.moveDec]

/-- At most nine continuation bytes and then silence: DECODE waits in `Reading` (R151). -/
theorem exec_decode_of_silent (has : s.sourceAnswers = bs.map SrcAnswer.byte) :
    exec .decode s = .next (s.moveDec (.reading ⟨bs.length, by omega⟩ (accFrom 0 0#64 bs)) []
      (.start :: bs.map DecEvent.rd)) := by
  obtain ⟨hexec, hrest⟩ := exec_decode_after_conts s bs hs hbs hlen [] (by simpa using has)
  rw [hexec, readLoop_silent (pastAnswers SrcDrive.answer bs.length s.source) _ _ _ rfl rfl hrest]
  simp [State.moveDec]

end

/-- Settles O26: ten continuation bytes end in TooLong, and on each of the three other shapes of the answers DECODE
ends or waits in another phase. -/
theorem decodeOfTenContinuationsRaisesTooLong : Obligations.DecodeOfTenContinuationsRaisesTooLong := by
  refine ⟨fun s bs more hs hten hbs has => exec_decode_of_tooLong s bs hs hbs more hten has,
    fun s t hs hexec ht => ?_⟩
  obtain ⟨bs, b, more, has, hbs, hb, hlen⟩ | ⟨bs, more, has, hbs, hten⟩ | ⟨bs, e, more, has, hbs, hlen⟩ |
    ⟨bs, has, hbs, hlen⟩ := sourceAnswers_shapes s.sourceAnswers
  · rw [exec_decode_of_form s bs hs hbs hlen b more hb has] at hexec
    cases hexec
    cases ht
  · exact ⟨bs, more, hten, hbs, has⟩
  · rw [exec_decode_of_fail s bs hs hbs hlen e more has] at hexec
    cases hexec
    cases ht
  · rw [exec_decode_of_silent s bs hs hbs hlen has] at hexec
    cases hexec
    cases ht

end Sys2Proof.Machine

/-! PROOFS. 40_encoder.md: the byte on offer (R111), one edge of the encoder's clock in each phase (R112 to R115), and
ENCODE as one move on every behaviour of its sink (R116, R119). -/

namespace Sys2Proof.Machine

/-! ## The byte on offer -/

/-- Higher bits remain exactly for the values from 128 on (R111). -/
theorem ge_iff_shift7_ne_zero (rem : U64) : 128 ≤ rem.toNat ↔ rem >>> 7 ≠ 0#64 := by
  rw [ne_eq, ← BitVec.toNat_inj, shift7_toNat]
  simp only [BitVec.toNat_ofNat]
  omega

theorem encByte_of_ge {rem : U64} (h : 128 ≤ rem.toNat) : encByte rem = contByte (low7 rem) :=
  if_pos ((le_iff_toNat rem).2 h)

theorem encByte_of_lt {rem : U64} (h : rem.toNat < 128) : encByte rem = termByte (low7 rem) :=
  if_neg fun h' => absurd ((le_iff_toNat rem).1 h') (by omega)

/-- A continuation byte is its payload with the mask `0x80` set (R111). -/
theorem setWidth_contByte_low7 (rem : U64) :
    (contByte (low7 rem)).setWidth 64 = (rem &&& 0x7F#64) ||| 0x80#64 := by
  apply BitVec.eq_of_toNat_eq
  have hmask : rem.toNat &&& 127 = rem.toNat % 128 := Nat.and_two_pow_sub_one_eq_mod rem.toNat 7
  have hor : 128 + rem.toNat % 128 = 128 ||| rem.toNat % 128 := Nat.two_pow_add_eq_or_of_lt (i := 7) (by omega) 1
  simp only [BitVec.toNat_setWidth, contByte_toNat, low7_toNat, BitVec.toNat_or, BitVec.toNat_and, BitVec.toNat_ofNat]
  rw [Nat.or_comm, Nat.mod_eq_of_lt (by omega)]
  simpa [hmask] using hor

/-- The terminator byte of a value below 128 is the value itself (R111). -/
theorem setWidth_termByte_low7 {rem : U64} (h : rem.toNat < 128) : (termByte (low7 rem)).setWidth 64 = rem := by
  apply BitVec.eq_of_toNat_eq
  simp only [BitVec.toNat_setWidth, termByte_toNat, low7_toNat]
  omega

theorem encOut_snkByte_of_emit {s : State} {rem : U64} (h : s.enc = .emit rem) : s.encOut.snkByte = encByte rem := by
  rw [State.encOut, h]
  rfl

/-- A result is offered exactly while the phase holds one (10_state.md R30). -/
theorem encOut_resValid (s : State) : s.encOut.resValid = s.enc.result.isSome := by
  rw [State.encOut]
  cases s.enc <;> rfl

/-! ## One edge of the encoder's clock -/

section
variable {s : State} {e : EncEdge}

/-- Reset wins over every other input. -/
theorem encClock_reset (h : e.rst = true) : s.encClock e = s.setEnc .idle := if_pos h

section
variable (hrst : e.rst = false)
include hrst

/-- In `Idle` without a command nothing happens (R119). -/
theorem encClock_idle (hs : s.enc = .idle) (hcmd : e.cmdValid = false) : s.encClock e = s := by
  simp [State.encClock, hrst, hs, hcmd]

/-- A result waits for the caller (R115, R119). -/
theorem encClock_result_waits (hs : s.enc.result.isSome = true) (hready : e.resReady = false) : s.encClock e = s := by
  cases henc : s.enc with
  | idle => simp [henc, EncState.result] at hs
  | emit rem => simp [henc, EncState.result] at hs
  | done => simp [State.encClock, hrst, henc, hready]
  | failed err => simp [State.encClock, hrst, henc, hready]

variable {rem : U64} (hs : s.enc = .emit rem)
include hs

/-- In `Emit` the edge offers the byte to the sink's next drive. -/
theorem encClock_emit_cons {d : SnkDrive} {ds : List SnkDrive} (hsink : s.sink = d :: ds) :
    s.encClock e = (s.setSink ds).offer d := by
  simp [State.encClock, State.sinkEdge, hrst, hs, hsink]

/-- In `Emit` nothing happens while the sink is silent (R119). -/
theorem encClock_emit_nil (hsink : s.sink = []) : s.encClock e = s := by
  simp [State.encClock, State.sinkEdge, hrst, hs, hsink, offer_none s .quiet rfl]

end
end

/-- Settles O20: the two cases of `EncByte`, and a quiet edge leaves the block as it is (`offer_none`). -/
theorem offeredByteIsEncByteOfTheRemainder : Obligations.OfferedByteIsEncByteOfTheRemainder := by
  refine ⟨fun rem => ⟨ge_iff_shift7_ne_zero rem, fun h => ?_, fun h => ?_⟩,
    fun s rem hs => ⟨encOut_snkByte_of_emit hs, fun e ds hrst hsink => ?_⟩⟩
  · rw [encByte_of_ge h]
    exact ⟨rfl, setWidth_contByte_low7 rem⟩
  · rw [encByte_of_lt h]
    exact ⟨rfl, setWidth_termByte_low7 h⟩
  · rw [encClock_emit_cons hrst hs hsink, offer_none _ .quiet rfl]
    rfl

/-- The phase after a byte was accepted, with the guard `rem >= 128` as R113 writes it. -/
theorem encFire_wr_toNat (rem : U64) :
    encFire (.emit rem) (.wr (encByte rem)) = some (if 128 ≤ rem.toNat then .emit (rem >>> 7) else .done) := by
  simp only [encFire_wr, le_iff_toNat]

/-- Settles O37: `offer_ok` and `offer_fail` at the edge, `encFire_wr` at the event, and one byte fewer to go after a
shift (`encLen_of_ge`). -/
theorem sinkEdgeWritesOneByteOrFails : Obligations.SinkEdgeWritesOneByteOrFails := by
  refine ⟨fun s rem e ds hs hrst => ⟨fun hsink => ?_, fun err hsink => ?_⟩, fun rem => ?_, by decide⟩
  · rw [encClock_emit_cons hrst hs hsink, offer_ok (s.setSink ds) rem hs .ready rfl]
    simp only [le_iff_toNat]
    rfl
  · rw [encClock_emit_cons hrst hs hsink, offer_fail (s.setSink ds) rem hs (.fail err) err rfl]
    rfl
  · have hshift : (rem >>> 7).toNat < 2 ^ 57 := by
      rw [shift7_toNat]
      have := rem.isLt
      omega
    exact ⟨encFire_wr_toNat rem, hshift, encLen_le_ten rem, fun h => (encLen_of_ge rem h).symm⟩

/-! ## ENCODE on each behaviour of the sink -/

section
variable (v : U64) (s : State) (hs : s.enc = .idle)
include hs

/-- The sink accepts every write: all of `Enc(v)` is written and the phase is `Done`. -/
theorem exec_encode_of_accepts (has : s.sinkAnswers.take (encLen v) = List.replicate (encLen v) .ok) :
    exec (.encode v) s = .next (s.moveEnc .done (pastAnswers SnkDrive.answer (encLen v) s.sink) (encBytes v)
      (.cmd v :: (encBytes v).map EncEvent.wr)) := by
  rw [exec_encode_of_idle v s hs, writeLoop_ok s.sink _ v rfl has]
  simp [State.wroteBytes, State.moveEnc]

section
variable {k : Nat} (hk : k < encLen v)
include hk

/-- The sink fails write `k`: the first `k` bytes are written and the phase is `Failed` (R114). -/
theorem exec_encode_of_fails {e : IoInfo} (has : s.sinkAnswers.take (k + 1) = List.replicate k .ok ++ [.fail e]) :
    exec (.encode v) s = .next (s.moveEnc (.failed e) (pastAnswers SnkDrive.answer (k + 1) s.sink)
      ((encBytes v).take k) (.cmd v :: (((encBytes v).take k).map EncEvent.wr ++ [.wrfail e]))) := by
  rw [exec_encode_of_idle v s hs, writeLoop_fail s.sink _ v k e rfl hk has]
  simp [State.wroteBytes, State.moveEnc]

/-- The sink falls silent after `k` acceptances: the first `k` bytes are written and the encoder waits in `Emit`
(R119). -/
theorem exec_encode_of_silent (has : s.sinkAnswers = List.replicate k .ok) :
    exec (.encode v) s = .next (s.moveEnc (.emit (v >>> (7 * k))) [] ((encBytes v).take k)
      (.cmd v :: ((encBytes v).take k).map EncEvent.wr)) := by
  rw [exec_encode_of_idle v s hs,
    writeLoop_wait s.sink { s with enc := .emit v, encTrace := s.encTrace ++ [.cmd v] } v k rfl hk rfl has]
  simp [State.wroteBytes, State.moveEnc]

end
end

/-- Settles O24: the sink's answers accept every write, or fail one, or end before (`sinkAnswers_cases`). -/
theorem encodeAlwaysWritesAPrefixOfEnc : Obligations.EncodeAlwaysWritesAPrefixOfEnc := by
  intro v s hs
  obtain ⟨has, hlead⟩ | ⟨k, e, hk, has, hlead, hat⟩ | ⟨k, hk, has, hlead, hat⟩ :=
    sinkAnswers_cases s.sinkAnswers (encLen v)
  · have hall : (encBytes v).take (encLen v) = encBytes v := List.take_of_length_le (encBytes_length v).le
    exact ⟨_, encLen v, [], exec_encode_of_accepts v s hs has, (Nat.min_eq_left hlead).symm, by rw [hall]; rfl,
      by rw [hall, List.append_nil]; rfl, .inl ⟨rfl, rfl, rfl⟩, rfl, rfl, rfl, rfl, rfl⟩
  · exact ⟨_, k, [.wrfail e], exec_encode_of_fails v s hs hk has, by omega, rfl, rfl,
      .inr (.inl ⟨e, rfl, hk, hat, rfl⟩), rfl, rfl, rfl, rfl, rfl⟩
  · exact ⟨_, k, [], exec_encode_of_silent v s hs hk has, by omega, rfl, by rw [List.append_nil]; rfl,
      .inr (.inr ⟨rfl, hk, hat, rfl⟩), rfl, rfl, rfl, rfl, rfl⟩

/-! ## Waiting edges -/

/-- The state in which `m` edges of the encoder's clock with the inputs `e` come next, and nothing else. -/
def State.withEncEdges (s : State) (m : Nat) (e : EncEdge) : State :=
  { s with agenda := List.replicate m (.env (.edgeEnc e)) }

theorem step_withEncEdges (s : State) (m : Nat) (e : EncEdge) :
    step (s.withEncEdges (m + 1) e) = .next ((({ s with tick := s.tick + 1 } : State).withEncEdges m e).encClock e) :=
  rfl

/-- An encoder in `Emit` stays there at every edge without reset while its sink is silent (R119). -/
theorem runSteps_edges_of_silent (m : Nat) (e : EncEdge) (hrst : e.rst = false) (s : State) (rem : U64)
    (hs : s.enc = .emit rem) (hsink : s.sink = []) :
    runSteps m (s.withEncEdges m e) = .next { s with agenda := [], tick := s.tick + m } := by
  induction m generalizing s with
  | zero => rfl
  | succ m ih =>
    have hstays : step (s.withEncEdges (m + 1) e) =
        .next (({ s with tick := s.tick + 1 } : State).withEncEdges m e) :=
      (step_withEncEdges s m e).trans (congrArg Host.Outcome.next (encClock_emit_nil hrst hs hsink))
    rw [runSteps_succ, hstays, show s.tick + (m + 1) = s.tick + 1 + m by omega]
    exact ih { s with tick := s.tick + 1 } hs hsink

/-- Settles O23: ENCODE waits (`exec_encode_of_silent`), every further edge keeps it waiting
(`runSteps_edges_of_silent`), and so do `Idle`, `Done` and `Failed` without a willing caller. -/
theorem encodeWaitsInEmitForASilentSink : Obligations.EncodeWaitsInEmitForASilentSink := by
  refine ⟨fun v s k hs hk has => ⟨_, rfl, exec_encode_of_silent v s hs hk has, rfl, encOut_resValid _,
    fun m e hrst => runSteps_edges_of_silent m e hrst _ _ rfl rfl, fun e hrst => ?_⟩,
    fun s e hrst => ⟨encClock_idle hrst, encClock_result_waits hrst⟩⟩
  rw [encClock_reset hrst, State.setEnc_enc]

end Sys2Proof.Machine

/-! PROOFS. 41_decoder.md: a decoder whose source is silent waits in `Reading` until reset (R151). -/

namespace Sys2Proof.Machine

/-! ## Turns that change nothing -/

/-- The state in which the environment's turn `t` comes next `m` times, and nothing else. -/
def State.withEnvTurns (s : State) (m : Nat) (t : EnvTurn) : State :=
  { s with agenda := List.replicate m (.env t) }

theorem step_withEnvTurns (s : State) (m : Nat) (t : EnvTurn) :
    step (s.withEnvTurns (m + 1) t) = .next ((({ s with tick := s.tick + 1 } : State).withEnvTurns m t).envTurn t) :=
  rfl

/-- A turn that changes nothing, whatever the agenda and the counter, changes nothing any number of times. -/
theorem runSteps_withEnvTurns_of_fixed (m : Nat) (t : EnvTurn) (s : State)
    (hfixed : ∀ (turns : List Turn) (k : Nat),
      State.envTurn { s with agenda := turns, tick := k } t = { s with agenda := turns, tick := k }) :
    runSteps m (s.withEnvTurns m t) = .next { s with agenda := [], tick := s.tick + m } := by
  induction m generalizing s with
  | zero => rfl
  | succ m ih =>
    have hstays : step (s.withEnvTurns (m + 1) t) = .next (({ s with tick := s.tick + 1 } : State).withEnvTurns m t) :=
      (step_withEnvTurns s m t).trans (congrArg Host.Outcome.next (hfixed _ _))
    rw [runSteps_succ, hstays, show s.tick + (m + 1) = s.tick + 1 + m by omega]
    exact ih { s with tick := s.tick + 1 } hfixed

/-! ## One edge of the decoder's clock, and its outputs -/

section
variable {s : State} {e : DecEdge}

/-- Reset wins over every other input. -/
theorem decClock_reset (h : e.rst = true) : s.decClock e = s.setDec .idle := if_pos h

variable {n : Fin 10} {acc : U64} (hs : s.dec = .reading n acc)
include hs

/-- In `Reading` nothing happens while the source is silent (R151). -/
theorem decClock_reading_nil (hrst : e.rst = false) (hsource : s.source = []) : s.decClock e = s := by
  simp [State.decClock, State.sourceEdge, hrst, hs, hsource, ask_none s .quiet rfl]

/-- In `Reading` the decoder asks for a byte and offers no result (10_state.md R31). -/
theorem decOut_of_reading : s.decOut.resValid = false ∧ s.decOut.srcReady = true := by
  rw [State.decOut, hs]
  exact ⟨rfl, rfl⟩

end

/-- Settles O28: DECODE waits (`exec_decode_of_silent`), an edge without reset changes nothing
(`decClock_reading_nil`), so neither do many (`runSteps_withEnvTurns_of_fixed`), and reset ends it. -/
theorem decodeWaitsInReadingForASilentSource : Obligations.DecodeWaitsInReadingForASilentSource := by
  rintro s bs ⟨_, hlt⟩ hs rfl hbs has
  obtain ⟨hvalid, hready⟩ := decOut_of_reading (s := s.moveDec (.reading _ (accFrom 0 0#64 bs)) [] _) rfl
  refine ⟨_, rfl, exec_decode_of_silent s bs hs hbs (Nat.le_of_lt_succ hlt) has, rfl, hvalid, hready,
    fun m e hrst => ?_, fun e hrst => ?_⟩
  · exact runSteps_withEnvTurns_of_fixed m (.edgeDec e) _ fun _ _ => decClock_reading_nil rfl hrst rfl
  · rw [decClock_reset hrst, State.setDec_dec]

end Sys2Proof.Machine

/-! PROOFS. 42_invariants.md: `Dec` undoes `Enc` (R180), no accepted form is shorter (R181), ten continuation bytes are
too long (R184), the literal vectors (R185), and every run keeps the invariant, so no operation moves more than ten
bytes (R182). -/

namespace Sys2Proof.Machine

/-! ## Round trip -/

/-- Accumulating the bytes of `Enc(v)` gives `v`. -/
theorem accFrom_encBytes (v : U64) : accFrom 0 0#64 (encBytes v) = v := by
  rw [accFrom_zero, payloadSum_encBytes]
  simp [trunc64]

/-- `Dec` accepts at most nine continuation bytes and a terminator, whatever follows (R85). -/
theorem decBytes_of_form {bs : List Byte} {b : Byte} (t : List Byte) (hbs : ∀ c ∈ bs, contBit c = true)
    (hb : contBit b = false) (hlen : bs.length ≤ 9) :
    decBytes (bs ++ [b] ++ t) = .accept (accFrom 0 0#64 (bs ++ [b])) (bs.length + 1) :=
  decBytes_eq_accept.2 ⟨bs, b, t, by simp, hbs, hb, hlen, rfl, rfl⟩

theorem decBytes_encBytes_append (v : U64) (t : List Byte) :
    decBytes (encBytes v ++ t) = .accept v (encLen v) := by
  obtain ⟨bs, b, henc, hbs, hb, hlen, -⟩ := encBytes_shape v
  have hten := encLen_le_ten v
  rw [henc, decBytes_of_form t hbs hb (by omega), ← henc, accFrom_encBytes, hlen]

theorem decBytes_encBytes (v : U64) : decBytes (encBytes v) = .accept v (encBytes v).length := by
  rw [encBytes_length, ← decBytes_encBytes_append v [], List.append_nil]

/-- An ENCODE that ended in `Done` appended all of `Enc(v)` to its sink (R116). -/
theorem exec_encode_done_sunk {v : U64} {s s' : State} (hs : s.enc = .idle) (hexec : exec (.encode v) s = .next s')
    (hdone : s'.enc = .done) : s'.sunk = s.sunk ++ encBytes v := by
  obtain ⟨t, k, evs, hexec', -, hsunk, -, hend, -⟩ := encodeAlwaysWritesAPrefixOfEnc v s hs
  obtain rfl : t = s' := by simpa [hexec'] using hexec
  obtain ⟨-, rfl, -⟩ | ⟨e, hfailed, -⟩ | ⟨hemit, -⟩ := hend
  · rw [hsunk, List.take_of_length_le (encBytes_length v).le]
  · rw [hfailed] at hdone
    cases hdone
  · rw [hemit] at hdone
    cases hdone

/-- DECODE of the bytes of `Enc(v)`, delivered with any waits, ends in `Done` with `v` past exactly those bytes. -/
theorem exec_decode_of_encBytes (v : U64) (u : State) (more : List SrcAnswer) (hu : u.dec = .idle)
    (has : u.sourceAnswers = (encBytes v).map SrcAnswer.byte ++ more) :
    exec .decode u = .next (u.moveDec (.done v) (pastAnswers SrcDrive.answer (encBytes v).length u.source)
      (.start :: (encBytes v).map DecEvent.rd)) := by
  obtain ⟨bs, b, henc, hbs, hb, hlen, -⟩ := encBytes_shape v
  have hten := encLen_le_ten v
  rw [exec_decode_of_form u bs hu hbs (by omega) b more hb (by simp [has, henc]), ← henc, accFrom_encBytes, hlen,
    encBytes_length]

/-- Settles O58: a completed ENCODE wrote `Enc(v)` (`exec_encode_done_sunk`), which DECODE reads back
(`exec_decode_of_encBytes`). -/
theorem decodingWhatEncodeWroteGivesTheValue : Obligations.DecodingWhatEncodeWroteGivesTheValue := by
  refine ⟨decBytes_encBytes_append, fun v s s' u written more hs hexec hdone hsunk hu has => ?_⟩
  obtain rfl : written = encBytes v :=
    List.append_cancel_left (hsunk.symm.trans (exec_encode_done_sunk hs hexec hdone))
  exact exec_decode_of_encBytes v u more hu has

/-- Settles O13: the encodings are evaluated, and `decBytes_encBytes` decodes them. -/
theorem literalVectorsHoldInBothDirections : Obligations.LiteralVectorsHoldInBothDirections := by
  intro p hp
  have henc : encBytes p.1 = p.2 := by
    revert p
    decide
  exact ⟨henc, henc ▸ decBytes_encBytes p.1⟩

/-! ## Minimality -/

/-- What `k` bytes accumulate is below `2^(7k)`. -/
theorem accFrom_zero_toNat_lt (bs : List Byte) : (accFrom 0 0#64 bs).toNat < 2 ^ (7 * bs.length) := by
  have hsum : payloadSum 0 (bs.map payload) < 2 ^ (7 * bs.length) := by simpa using payloadSum_lt 0 (bs.map payload)
  rw [accFrom_zero, trunc64_toNat]
  exact (Nat.mod_le _ _).trans_lt hsum

/-- No byte sequence that `Dec` accepts as `v` is shorter than `Enc(v)` (R181). -/
theorem encLen_le_of_accept {v : U64} {s : List Byte} {k : Nat} (h : decBytes s = .accept v k) : encLen v ≤ k := by
  obtain ⟨bs, b, t, -, -, -, -, rfl, rfl⟩ := decBytes_eq_accept.1 h
  rw [encLen_le_iff _ _ (by omega)]
  simpa using accFrom_zero_toNat_lt (bs ++ [b])

/-- Before the last byte is written, something of the value is left. -/
theorem shifted_pos {v : U64} {i : Nat} (hi : 1 ≤ i) (h : i < encLen v) : 0 < (v >>> (7 * i)).toNat := by
  have hlarge : ¬ v.toNat < 2 ^ (7 * i) := by
    rw [← encLen_le_iff v i hi]
    omega
  rw [BitVec.toNat_ushiftRight, Nat.shiftRight_eq_div_pow]
  exact Nat.div_pos (Nat.le_of_not_lt hlarge) (Nat.two_pow_pos _)

/-- The last of several bytes has a non-zero payload: it is all that is left of the value (R181). -/
theorem encBytes_getLast_payload_ne_zero {v : U64} (h : 1 < encLen v) :
    ∃ b, (encBytes v).getLast? = some b ∧ payload b ≠ 0#7 := by
  obtain ⟨bs, b, henc, -, hb, -, hlast⟩ := encBytes_shape v
  refine ⟨b, by simp [henc], fun hzero => ?_⟩
  subst hlast
  have hleft := shifted_pos (v := v) (i := encLen v - 1) (by omega) (by omega)
  generalize v >>> (7 * (encLen v - 1)) = rem at hleft hb hzero
  have hsmall : rem.toNat < 128 := by simpa [contBit_encByte] using hb
  have hlow : rem.toNat % 128 = 0 := by simpa using congrArg BitVec.toNat hzero
  omega

/-- Settles O12, from `encBytes_getLast_payload_ne_zero` and `encLen_le_of_accept`. -/
theorem noShorterFormDecodesToTheValue : Obligations.NoShorterFormDecodesToTheValue := by
  refine ⟨fun v => ⟨encBytes_length v, fun h => ?_⟩, fun v s k => encLen_le_of_accept, by decide⟩
  obtain ⟨b, hlast, hpayload⟩ := encBytes_getLast_payload_ne_zero h
  exact ⟨b, hlast, fun hb => hpayload (by rw [hb]; rfl), hpayload⟩

/-! ## Bounded decode -/

/-- `Dec` rejects ten continuation bytes, whatever follows (R89). -/
theorem decBytes_of_ten_conts {s : List Byte} (t : List Byte) (hten : s.length = 10)
    (hs : ∀ b ∈ s, contBit b = true) : decBytes (s ++ t) = .reject 10 := by
  obtain rfl | ⟨bs, b, rfl⟩ := List.eq_nil_or_concat' s
  · simp at hten
  · rw [List.append_assoc]
    exact decAt_reject 0 0#64 bs b t (fun c hc => hs c (by simp [hc])) (hs b (by simp)) (by simpa using hten)

/-- Settles O19, from `decBytes_of_ten_conts` and `decBytes_of_form`. -/
theorem tenContinuationsAreTooLongFewerAreNot : Obligations.TenContinuationsAreTooLongFewerAreNot :=
  ⟨fun _ t hten hs => decBytes_of_ten_conts t hten hs, fun _ t _ hlen hs hb => ⟨_, decBytes_of_form t hs hb hlen⟩⟩

/-! ## Every run keeps the invariant -/

/-- The invariant speaks of the two blocks and their traces alone. -/
theorem State.Inv.of_same {s t : State} (h : s.Inv) (henc : t.enc = s.enc) (hdec : t.dec = s.dec)
    (hencTrace : t.encTrace = s.encTrace) (hdecTrace : t.decTrace = s.decTrace) : t.Inv := by
  rw [State.Inv, henc, hdec, hencTrace, hdecTrace]
  exact h

section
variable {s : State} (h : s.Inv)
include h

theorem encEvent_keeps_inv (ev : EncEvent) : (s.encEvent ev).Inv := by
  obtain ⟨henc, hdec⟩ := s.inv_iff.1 h
  unfold State.encEvent
  cases hf : encFire s.enc ev with
  | none => exact h
  | some e => exact (State.inv_iff _).2 ⟨encFire_keeps_inv henc hf, hdec⟩

theorem decEvent_keeps_inv (ev : DecEvent) : (s.decEvent ev).Inv := by
  obtain ⟨henc, hdec⟩ := s.inv_iff.1 h
  unfold State.decEvent
  cases hf : decFire s.dec ev with
  | none => exact h
  | some d => exact (State.inv_iff _).2 ⟨henc, decFire_keeps_inv hdec hf⟩

/-- `Idle` agrees with every trace. -/
theorem setEnc_idle_keeps_inv : (s.setEnc .idle).Inv := ⟨trivial, h.2⟩

/-- `Idle` agrees with every trace. -/
theorem setDec_idle_keeps_inv : (s.setDec .idle).Inv := ⟨h.1, trivial, h.2.2⟩

theorem setSink_keeps_inv (ds : List SnkDrive) : (s.setSink ds).Inv := h.of_same rfl rfl rfl rfl

theorem setSource_keeps_inv (ds : List SrcDrive) : (s.setSource ds).Inv := h.of_same rfl rfl rfl rfl

theorem offer_keeps_inv (d : SnkDrive) : (s.offer d).Inv := by
  unfold State.offer
  cases s.enc with
  | emit rem =>
    cases d.answer with
    | none => exact h
    | some a =>
      cases a with
      | ok => exact encEvent_keeps_inv h _
      | fail e => exact encEvent_keeps_inv h _
  | _ => exact h

theorem ask_keeps_inv (d : SrcDrive) : (s.ask d).Inv := by
  unfold State.ask
  cases s.dec with
  | reading n acc =>
    cases d.answer with
    | none => exact h
    | some a =>
      cases a with
      | byte b => exact decEvent_keeps_inv h _
      | fail e => exact decEvent_keeps_inv h _
  | _ => exact h

end

theorem writeLoop_keeps_inv (ds : List SnkDrive) {s : State} (h : s.Inv) : (writeLoop ds s).Inv := by
  induction ds generalizing s with
  | nil => exact h
  | cons d ds ih =>
    by_cases hs : ∃ rem, s.enc = .emit rem
    · obtain ⟨rem, hs⟩ := hs
      rw [writeLoop_cons d ds s rem hs]
      exact ih (offer_keeps_inv (setSink_keeps_inv h ds) d)
    · rw [writeLoop_of_not_emit _ s (not_exists.1 hs)]
      exact h

theorem readLoop_keeps_inv (ds : List SrcDrive) {s : State} (h : s.Inv) : (readLoop ds s).Inv := by
  induction ds generalizing s with
  | nil => exact h
  | cons d ds ih =>
    by_cases hs : ∃ n acc, s.dec = .reading n acc
    · obtain ⟨n, acc, hs⟩ := hs
      rw [readLoop_cons d ds s n acc hs]
      exact ih (ask_keeps_inv (setSource_keeps_inv h ds) d)
    · rw [readLoop_of_not_reading _ s (fun n acc hn => hs ⟨n, acc, hn⟩)]
      exact h

section
variable {s : State} (h : s.Inv)
include h

theorem execEncode_keeps_inv {t : State} (v : U64) (hexec : execEncode v s = .next t) : t.Inv := by
  unfold execEncode at hexec
  split at hexec <;> cases hexec
  · exact writeLoop_keeps_inv _ (encEvent_keeps_inv h _)
  all_goals exact h

theorem execDecode_keeps_inv {t : State} (hexec : execDecode s = .next t) : t.Inv := by
  unfold execDecode at hexec
  split at hexec <;> cases hexec
  · exact readLoop_keeps_inv _ (decEvent_keeps_inv h _)
  all_goals exact h

/-- Every instruction keeps the invariant: the two operations by their loops, a wire row by its delivery. -/
theorem exec_keeps_inv {t : State} (i : Instr) (hexec : exec i s = .next t) : t.Inv := by
  by_cases hkind : i.kind = .operation
  · cases i with
    | encode v => exact execEncode_keeps_inv h v hexec
    | decode => exact execDecode_keeps_inv h hexec
    | _ => cases hkind
  · rw [exec_of_wire i s hkind] at hexec
    cases hexec
    exact readLoop_keeps_inv _ (setSource_keeps_inv h _)

theorem sinkEdge_keeps_inv : s.sinkEdge.Inv := by
  unfold State.sinkEdge
  cases s.sink with
  | nil => exact offer_keeps_inv h _
  | cons d ds => exact offer_keeps_inv (setSink_keeps_inv h ds) d

theorem sourceEdge_keeps_inv : s.sourceEdge.Inv := by
  unfold State.sourceEdge
  cases s.source with
  | nil => exact ask_keeps_inv h _
  | cons d ds => exact ask_keeps_inv (setSource_keeps_inv h ds) d

/-- An event of the encoder that the caller's input `c` allows. -/
theorem encEvent_if_keeps_inv (c : Bool) (ev : EncEvent) : (if c then s.encEvent ev else s).Inv := by
  split
  · exact encEvent_keeps_inv h ev
  · exact h

/-- An event of the decoder that the caller's input `c` allows. -/
theorem decEvent_if_keeps_inv (c : Bool) (ev : DecEvent) : (if c then s.decEvent ev else s).Inv := by
  split
  · exact decEvent_keeps_inv h ev
  · exact h

theorem encClock_keeps_inv (e : EncEdge) : (s.encClock e).Inv := by
  unfold State.encClock
  split
  · exact setEnc_idle_keeps_inv h
  · cases s.enc with
    | idle => exact encEvent_if_keeps_inv h _ _
    | emit rem => exact sinkEdge_keeps_inv h
    | done => exact encEvent_if_keeps_inv h _ _
    | failed err => exact encEvent_if_keeps_inv h _ _

theorem decClock_keeps_inv (e : DecEdge) : (s.decClock e).Inv := by
  unfold State.decClock
  split
  · exact setDec_idle_keeps_inv h
  · cases s.dec with
    | idle => exact decEvent_if_keeps_inv h _ _
    | reading n acc => exact sourceEdge_keeps_inv h
    | done v => exact decEvent_if_keeps_inv h _ _
    | failed err => exact decEvent_if_keeps_inv h _ _

theorem takeEnc_keeps_inv : s.takeEnc.Inv := by
  unfold State.takeEnc
  cases s.enc.result with
  | none => exact h
  | some r => exact encEvent_keeps_inv h _

theorem takeDec_keeps_inv : s.takeDec.Inv := by
  unfold State.takeDec
  cases s.dec.result with
  | none => exact h
  | some r => exact decEvent_keeps_inv h _

theorem envTurn_keeps_inv (t : EnvTurn) : (s.envTurn t).Inv := by
  cases t with
  | takeEnc => exact takeEnc_keeps_inv h
  | takeDec => exact takeDec_keeps_inv h
  | resumeEnc => exact writeLoop_keeps_inv _ h
  | edgeEnc e => exact encClock_keeps_inv h e
  | edgeDec e => exact decClock_keeps_inv h e
  | grant d => exact setSink_keeps_inv h _
  | feed d => exact setSource_keeps_inv h _
  | foreignWrite b => exact h.of_same rfl rfl rfl rfl
  | foreignRead => exact setSource_keeps_inv h _

theorem stepWire_keeps_inv {t : State} (hstep : stepWire s = .next t) : t.Inv := by
  unfold stepWire at hstep
  cases hfetch : s.fetchWire with
  | none =>
    rw [hfetch] at hstep
    cases hstep
    exact readLoop_keeps_inv _ h
  | some i =>
    rw [hfetch] at hstep
    exact exec_keeps_inv (setSource_keeps_inv h _) i hstep

theorem stepTurn_keeps_inv {t : State} (turn : Turn) (hstep : stepTurn turn s = .next t) : t.Inv := by
  cases turn with
  | encode v => exact exec_keeps_inv h (.encode v) hstep
  | decode => exact exec_keeps_inv h .decode hstep
  | wire => exact stepWire_keeps_inv h hstep
  | env e =>
    cases hstep
    exact envTurn_keeps_inv h e

theorem step_keeps_inv {t : State} (hstep : step s = .next t) : t.Inv := by
  have hadvance : s.advance.Inv := h.of_same rfl rfl rfl rfl
  unfold step at hstep
  split at hstep
  · cases hstep
    exact hadvance
  · exact stepTurn_keeps_inv hadvance _ hstep

end

theorem runSteps_keeps_inv (k : Nat) {s t : State} (h : s.Inv) (hrun : runSteps k s = .next t) : t.Inv := by
  induction k generalizing s with
  | zero =>
    cases hrun
    exact h
  | succ k ih =>
    rw [runSteps_succ] at hrun
    cases hs : step s with
    | next u =>
      rw [hs] at hrun
      exact ih (step_keeps_inv h hs) hrun
    | fault r => cases r
    | refused r =>
      rw [hs] at hrun
      cases hrun

/-- Settles O59: `encLen_le_ten` for the encodings; and a state after any number of steps has the invariant
(`runSteps_keeps_inv`), which holds both bounds. -/
theorem noOperationMovesMoreThanTenBytes : Obligations.NoOperationMovesMoreThanTenBytes := by
  refine ⟨fun v => ?_, fun s t k h hrun => ?_⟩
  · rw [encBytes_length]
    exact ⟨encLen_pos v, encLen_le_ten v⟩
  · obtain ⟨-, -, hwrites, hreads⟩ := runSteps_keeps_inv k h hrun
    exact ⟨hreads, hwrites⟩

end Sys2Proof.Machine

/-! PROOFS. 60_exceptions.md: each error is raised by its one event (R200), a failed read ends DECODE in `Io(e)`
(R202), and a failed write leaves the bytes already accepted in the sink (R209). -/

namespace Sys2Proof.Machine

/-! ## The events that raise an error -/

/-- The encoder enters `Failed` by a failed write and by nothing else (R200). -/
theorem encFire_eq_failed {st : EncState} {ev : EncEvent} {e : IoInfo} :
    encFire st ev = some (.failed e) ↔ ∃ rem, st = .emit rem ∧ ev = .wrfail e := by
  cases ev with
  | cmd v => cases st <;> simp [encFire]
  | wr b =>
    cases st with
    | emit rem =>
      by_cases hmore : 128#64 ≤ rem
      · simp [encFire, hmore]
      · simp [encFire, hmore]
    | _ => simp [encFire]
  | wrfail err => cases st <;> simp [encFire, EncState.raise]
  | res r => simp [encFire, EncState.handOver]

/-- The decoder enters `Failed` by a tenth continuation byte or by a failed read, and by nothing else (R200). -/
theorem decFire_eq_failed {st : DecState} {ev : DecEvent} {err : DecodeError} :
    decFire st ev = some (.failed err) ↔
      (∃ acc b, st = .reading 9 acc ∧ ev = .rd b ∧ contBit b = true ∧ err = .tooLong) ∨
        ∃ n acc e, st = .reading n acc ∧ ev = .rdfail e ∧ err = .io e := by
  cases ev with
  | start => cases st <;> simp [decFire]
  | rd b => cases st <;> simp [decFire, readByte_eq_failed, and_assoc]
  | rdfail e => cases st <;> simp [decFire, DecState.raise, @eq_comm _ err]
  | res r => simp [decFire, DecState.handOver]

/-- Settles O41: `decFire_eq_failed` at each of the two error kinds, and `encFire_eq_failed`. -/
theorem eachErrorIsRaisedByItsEventOnly : Obligations.EachErrorIsRaisedByItsEventOnly := by
  refine ⟨fun err => ?_, fun st ev => ?_, fun st ev e => ?_, fun st ev e => encFire_eq_failed⟩
  · cases err with
    | tooLong => exact .inl rfl
    | io e => exact .inr ⟨e, rfl⟩
  · simp [decFire_eq_failed, contBit]
  · simp [decFire_eq_failed]

/-! ## A failed read and a failed write -/

/-- Settles O27: `exec_decode_of_fail`; and on each of the three other shapes of the answers DECODE ends or waits in
another phase. -/
theorem decodeFailedReadRaisesIo : Obligations.DecodeFailedReadRaisesIo := by
  refine ⟨fun s bs e more hs hlen hbs has => exec_decode_of_fail s bs hs hbs hlen e more has,
    fun s t e hs hexec ht => ?_⟩
  obtain ⟨bs, b, more, has, hbs, hb, hlen⟩ | ⟨bs, more, has, hbs, hten⟩ | ⟨bs, err, more, has, hbs, hlen⟩ |
    ⟨bs, has, hbs, hlen⟩ := sourceAnswers_shapes s.sourceAnswers
  · cases hexec.symm.trans (exec_decode_of_form s bs hs hbs hlen b more hb has)
    cases ht
  · cases hexec.symm.trans (exec_decode_of_tooLong s bs hs hbs more hten has)
    cases ht
  · cases hexec.symm.trans (exec_decode_of_fail s bs hs hbs hlen err more has)
    cases ht
    exact ⟨bs, more, hlen, hbs, has⟩
  · cases hexec.symm.trans (exec_decode_of_silent s bs hs hbs hlen has)
    cases ht

/-- A proper prefix of `Enc(v)` is continuation bytes only: it stops before the terminator (R82). -/
theorem contBit_of_mem_take_encBytes {v : U64} {k : Nat} (hk : k < encLen v) {b : Byte}
    (hb : b ∈ (encBytes v).take k) : contBit b = true := by
  obtain ⟨bs, last, henc, hbs, -, hlen, -⟩ := encBytes_shape v
  rw [henc, List.take_append_of_le_length (by omega)] at hb
  exact hbs b (List.mem_of_mem_take hb)

/-- Settles O22: `exec_encode_of_fails` gives the next state, whose phase `Failed` fixes the outputs. -/
theorem encodeFailedWriteKeepsThePrefixAndRaisesIo : Obligations.EncodeFailedWriteKeepsThePrefixAndRaisesIo :=
  fun v s _ _ hs hk has =>
    ⟨fun _ => contBit_of_mem_take_encBytes hk, _, rfl, exec_encode_of_fails v s hs hk has, rfl, encOut_resValid _,
      rfl⟩

end Sys2Proof.Machine

/-! PROOFS. 30_encoding.md: the wire rows and their bytes. The decoder finds a row exactly where its bytes stand (R81,
R86, R89), one row of the table matches every ten bytes (R88), and `Dec` gives each row its value (R85). -/

namespace Sys2Proof.Machine

/-! ## Rows and their bytes -/

/-- Settles O4: `decode_formBytes` for the encoded forms and `decode_contBytes` for the illegal shape. -/
theorem decodingAnEncodedRowGivesItBack : Obligations.DecodingAnEncodedRowGivesItBack := by
  intro i rest hi
  obtain ⟨k, hk⟩ | hk := kind_cases i hi
  · obtain ⟨ps, p, henc, hlen, hten, -, hrow⟩ := encode_of_form i k hk
    rw [henc, decode_formBytes ps p rest (by omega), hrow]
    rfl
  · obtain ⟨henc, hlen, hrow⟩ := encode_of_tooLong i hk
    obtain ⟨j, hj, hdec⟩ := decode_contBytes i.payloads rest hlen
    obtain rfl : i = j := by simpa [hrow] using hj
    rw [henc, hdec]

theorem wellFormed_of_form {i : Instr} {ps : List U7} {p : U7} (hlen : ps.length ≤ 9)
    (hkind : i.kind = .form (ps.length + 1)) (henc : encode i = formBytes ps p) : i.wellFormed = true := by
  rw [Instr.wellFormed, hkind, henc, RowKind.holds, isEncodedForm_formBytes ps p hlen]
  simp [formBytes]

theorem wellFormed_of_tooLong {i : Instr} {ps : List U7} (hlen : ps.length = 10) (hkind : i.kind = .tooLong)
    (henc : encode i = ps.map contByte) : i.wellFormed = true := by
  rw [Instr.wellFormed, hkind, henc]
  simp [RowKind.holds, isTooLong, hlen]

/-- Settles O5: on each of the shapes of `decode_cases`. -/
theorem encodingADecodedRowGivesItsBytes : Obligations.EncodingADecodedRowGivesItsBytes := by
  intro bs i rest hdec
  obtain ⟨ps, p, t, j, rfl, hlen, hj, hkind, henc, -⟩ | ⟨ps, t, j, rfl, hlen, hj, hkind, henc, -⟩ | ⟨-, -, hj⟩ :=
    decode_cases bs
  · cases hj.symm.trans hdec
    exact ⟨by simp [hkind], wellFormed_of_form hlen hkind henc, by rw [henc]⟩
  · cases hj.symm.trans hdec
    exact ⟨by simp [hkind], wellFormed_of_tooLong hlen hkind henc, by rw [henc]⟩
  · cases hj.symm.trans hdec

/-! ## Incomplete forms -/

/-- Ten bytes, or a terminator among fewer, are no incomplete form. -/
theorem decode_eq_needMore {bs : List Byte} {n : Nat} :
    decode bs = .needMore n ↔ bs.length = n ∧ n < 10 ∧ ∀ b ∈ bs, contBit b = true := by
  constructor
  · intro hdec
    obtain ⟨_, _, _, _, -, -, hj, -⟩ | ⟨_, _, _, -, -, hj, -⟩ | ⟨hbs, hlen, hj⟩ := decode_cases bs
    · cases hj.symm.trans hdec
    · cases hj.symm.trans hdec
    · cases hj.symm.trans hdec
      exact ⟨rfl, by omega, hbs⟩
  · rintro ⟨rfl, hlen, hbs⟩
    exact decode_of_incomplete hbs (by omega)

/-- Settles O6: `decode_eq_needMore`, and `Dec` needs more on the same sequences (`decBytes_eq_needMore`). -/
theorem decoderRejectsExactlyIncompleteForms : Obligations.DecoderRejectsExactlyIncompleteForms := by
  refine fun bs n => ⟨decode_eq_needMore, decode_eq_needMore.trans ⟨?_, ?_⟩⟩
  · rintro ⟨hlen, hn, hbs⟩
    exact ⟨⟨n, hn⟩, decBytes_eq_needMore.2 ⟨hbs, hlen⟩, rfl⟩
  · rintro ⟨m, hdec, rfl⟩
    obtain ⟨hbs, hlen⟩ := decBytes_eq_needMore.1 hdec
    exact ⟨hlen, m.isLt, hbs⟩

/-! ## The table's masks and patterns -/

/-- The mask `0x80` in every byte of a word selects the continuation bits (R88). -/
theorem wordOfBytes_and_mask (bs : List Byte) :
    wordOfBytes bs &&& wordOfBytes (List.replicate bs.length 0x80#8) = wordOfBytes (bs.map (· &&& 0x80#8)) := by
  induction bs with
  | nil => rfl
  | cons b bs ih =>
    have hb := b.isLt
    have hand (x y : Nat) (hx : x < 256) (z w : Nat) (hz : z < 256) :
        (x + 256 * y) &&& (z + 256 * w) = (x &&& z) + 256 * (y &&& w) := by
      have hdiv := Nat.and_div_two_pow (a := x + 256 * y) (b := z + 256 * w) (n := 8)
      have hmod := Nat.and_mod_two_pow (a := x + 256 * y) (b := z + 256 * w) (n := 8)
      rw [show (x + 256 * y) / 2 ^ 8 = y by omega, show (z + 256 * w) / 2 ^ 8 = w by omega] at hdiv
      rw [show (x + 256 * y) % 2 ^ 8 = x by omega, show (z + 256 * w) % 2 ^ 8 = z by omega] at hmod
      omega
    simp only [wordOfBytes, List.length_cons, List.replicate_succ, List.map_cons, ← ih, BitVec.toNat_and]
    exact hand _ _ hb _ _ (by decide)

/-- A word has its bytes. -/
theorem wordOfBytes_inj {bs cs : List Byte} (hlen : bs.length = cs.length) (h : wordOfBytes bs = wordOfBytes cs) :
    bs = cs := by
  induction bs generalizing cs with
  | nil => exact (List.eq_nil_of_length_eq_zero hlen.symm).symm
  | cons b bs ih =>
    obtain _ | ⟨c, cs⟩ := cs
    · simp at hlen
    · have hb := b.isLt
      have hc := c.isLt
      simp only [wordOfBytes] at h
      rw [ih (by simpa using hlen) (by omega), BitVec.eq_of_toNat_eq (x := b) (y := c) (by omega)]

/-- The mask `0x80` keeps the continuation bit alone (R80). -/
theorem and_mask_eq_ite (b : Byte) : b &&& 0x80#8 = if contBit b then 0x80#8 else 0#8 := BitVec.and_twoPow b 7

/-- Masked bytes agree exactly when the continuation bits do. -/
theorem map_and_mask_eq_iff (bs cs : List Byte) :
    bs.map (· &&& 0x80#8) = cs.map (· &&& 0x80#8) ↔ bs.map contBit = cs.map contBit := by
  have hmask (l : List Byte) :
      l.map (· &&& 0x80#8) = (l.map contBit).map fun c : Bool => if c then 0x80#8 else 0#8 := by
    simp [and_mask_eq_ite]
  have hinj : Function.Injective fun c : Bool => if c then 0x80#8 else 0#8 := by decide
  rw [hmask bs, hmask cs, (List.map_injective_iff.2 hinj).eq_iff]

/-- The row of a wire instruction has the width, the mask and the pattern of its bytes (opcode_table.json). -/
theorem rowOf_eq_of_bytes {i : Instr} (hi : i.kind ≠ .operation) :
    (rowOf i).width / 8 = (encode i).length ∧
      (rowOf i).mask = wordOfBytes (List.replicate (encode i).length 0x80#8) ∧
      (rowOf i).pattern = wordOfBytes ((encode i).map (· &&& 0x80#8)) := by
  cases i with
  | encode v => cases hi rfl
  | decode => cases hi rfl
  | _ => simp [rowOf, encode, formBytes, and_mask_eq_ite, wordOfBytes]

/-- A row matches a sequence exactly when its continuation bits stand at the front (R88). -/
theorem matchesBytes_iff {i : Instr} (hi : i.kind ≠ .operation) (bs : List Byte) :
    (rowOf i).matchesBytes bs = true ↔ (encode i).map contBit <+: bs.map contBit := by
  obtain ⟨hwidth, hmask, hpattern⟩ := rowOf_eq_of_bytes hi
  rw [Row.matchesBytes, hwidth, hmask, hpattern, Bool.and_eq_true, decide_eq_true_iff, beq_iff_eq,
    List.prefix_iff_eq_take, List.length_map, ← List.map_take]
  constructor
  · rintro ⟨hlen, hword⟩
    have htake : (bs.take (encode i).length).length = (encode i).length := List.length_take_of_le hlen
    nth_rw 2 [← htake] at hword
    rw [wordOfBytes_and_mask] at hword
    exact ((map_and_mask_eq_iff _ _).1 (wordOfBytes_inj (by simp [hlen]) hword)).symm
  · intro hbits
    have htake : (encode i).length = (bs.take (encode i).length).length := by simpa using congrArg List.length hbits
    refine ⟨by simpa using htake, ?_⟩
    nth_rw 2 [htake]
    rw [wordOfBytes_and_mask, (map_and_mask_eq_iff _ _).2 hbits]

/-! ## Exactly one row matches -/

/-- The number of a wire row in the table's order: the forms by their length, then the illegal shape. -/
def rowNumber : RowKind → Nat
  | .operation => 11
  | .form k => k - 1
  | .tooLong => 10

theorem wireRows_rowNumber {i : Instr} (hi : i.kind ≠ .operation) : wireRows[rowNumber i.kind]? = some (rowOf i) := by
  cases i with
  | encode v => cases hi rfl
  | decode => cases hi rfl
  | _ => rfl

/-- Every wire row is the row of an instruction that is no operation. -/
theorem exists_rowOf_of_mem_wireRows {r : Row} (hr : r ∈ wireRows) : ∃ i : Instr, i.kind ≠ .operation ∧ rowOf i = r := by
  simp only [wireRows, List.mem_cons, List.not_mem_nil, or_false] at hr
  rcases hr with rfl | rfl | rfl | rfl | rfl | rfl | rfl | rfl | rfl | rfl | rfl <;> exact ⟨_, by decide, rfl⟩

theorem map_contBit_map_contByte (ps : List U7) : (ps.map contByte).map contBit = List.replicate ps.length true :=
  List.eq_replicate_iff.2 (by simp)

/-- The place of the first byte with continuation bit 0, at most ten, is the number of a row that matches. -/
theorem rowNumber_eq_of_prefix {i : Instr} (hi : i.kind ≠ .operation) {cs : List Bool}
    (h : (encode i).map contBit <+: cs) : rowNumber i.kind = min 10 (cs.idxOf false) := by
  obtain ⟨t, rfl⟩ := h
  obtain ⟨k, hk⟩ | hk := kind_cases i hi
  · obtain ⟨ps, p, henc, rfl, hten, -⟩ := encode_of_form i k hk
    rw [hk, rowNumber, henc, formBytes, List.map_append, map_contBit_map_contByte]
    simp [List.idxOf_append, List.idxOf_cons_self]
    omega
  · obtain ⟨henc, hlen, -⟩ := encode_of_tooLong i hk
    rw [hk, rowNumber, henc, map_contBit_map_contByte, hlen]
    simp

/-- Settles O7: the row that the decoder finds matches, and `rowNumber_eq_of_prefix` gives every matching row the
same number. -/
theorem exactlyOneWireRowMatches : Obligations.ExactlyOneWireRowMatches := by
  intro bs hlen
  obtain ⟨i, rest, hdec⟩ : ∃ i rest, decode bs = .form i rest := by
    cases hdec : decode bs with
    | form i rest => exact ⟨i, rest, rfl⟩
    | needMore n =>
      obtain ⟨hn, hten, -⟩ := decode_eq_needMore.1 hdec
      omega
  obtain ⟨hi, -, rfl⟩ := encodingADecodedRowGivesItsBytes bs i rest hdec
  have hmatch : (encode i).map contBit <+: (encode i ++ rest).map contBit := by simp
  refine ⟨i, rest, hdec, List.mem_of_getElem? (wireRows_rowNumber hi), (matchesBytes_iff hi _).2 hmatch,
    fun r hr hrmatch => ?_⟩
  obtain ⟨j, hj, rfl⟩ := exists_rowOf_of_mem_wireRows hr
  have hnumber : rowNumber j.kind = rowNumber i.kind :=
    (rowNumber_eq_of_prefix hj ((matchesBytes_iff hj _).1 hrmatch)).trans (rowNumber_eq_of_prefix hi hmatch).symm
  exact Option.some.inj ((wireRows_rowNumber hj).symm.trans (hnumber ▸ wireRows_rowNumber hi))

/-! ## What `Dec` makes of a row -/

/-- The bytes of a form carry the row's payloads. -/
theorem map_payload_formBytes (ps : List U7) (p : U7) : (formBytes ps p).map payload = ps ++ [p] := by
  simp [formBytes, Function.comp_def]

/-- Settles O8: the accumulated payloads are the row's value (`accFrom_zero`). -/
theorem decAcceptsRowsWithTheirValue : Obligations.DecAcceptsRowsWithTheirValue := by
  refine fun i rest => ⟨fun k hk => ?_, fun hk => ?_⟩
  · obtain ⟨ps, p, henc, rfl, hten, hpayloads, -⟩ := encode_of_form i k hk
    have hvalue : accFrom 0 0#64 (formBytes ps p) = rowValue i.payloads := by
      rw [accFrom_zero, map_payload_formBytes, hpayloads, rowValue]
    rw [henc, ← hvalue]
    exact (decBytes_of_form rest (by simp) (by simp) (by simp; omega)).trans (by rw [formBytes, List.length_map])
  · obtain ⟨henc, hlen, -⟩ := encode_of_tooLong i hk
    rw [henc, decBytes_of_ten_conts rest (by simpa using hlen) (by simp)]

/-- Settles O3: the words are decoded. -/
theorem tableWordsDecodeToTheirRows : Obligations.TableWordsDecodeToTheirRows := by
  unfold Obligations.TableWordsDecodeToTheirRows
  decide

/-! ## No form is a prefix of another -/

/-- Settles O15: a form's length is the place of its first byte with continuation bit 0 (R81), which a longer sequence
shares. -/
theorem noFormIsAPrefixOfAnother : Obligations.NoFormIsAPrefixOfAnother := by
  intro f g hf hprefix
  obtain ⟨t, rfl⟩ := List.isPrefixOf_iff_prefix.1 hprefix
  obtain ⟨cs, b, rfl, hcs, hb, -⟩ := isEncodedForm_iff.1 hf
  refine ⟨fun hg => ?_, ?_⟩
  · have hfirst : (cs ++ [b]).findIdx (fun c => !contBit c) = cs.length := findIdx_conts_term hcs hb
    have hlen := (encodedFormIsContinuationsThenTerminator _).2.1 hg
    rw [List.findIdx_append, hfirst] at hlen
    obtain rfl : t = [] := by simpa using hlen
    simp
  · simp [isTooLong, hb]

end Sys2Proof.Machine

/-! PROOFS. 30_encoding.md section 2 and 42_invariants.md: the canonical encoding in closed form, its order, and the
forms it gives back; 41_decoder.md sections 1 and 2: what one byte adds to the accumulator. -/

namespace Sys2Proof.Machine

/-! ## The canonical encoding in closed form -/

/-- The byte on offer by masks: the low seven bits, and `0x80` while higher bits remain (40_encoder.md R111). -/
theorem encByte_eq_mask (rem : U64) :
    encByte rem = (rem &&& 0x7F#64).setWidth 8 ||| if 128 ≤ rem.toNat then 0x80#8 else 0x00#8 := by
  by_cases h : 128 ≤ rem.toNat
  · rw [encByte_of_ge h, if_pos h]
    simpa using congrArg (·.setWidth 8) (setWidth_contByte_low7 rem)
  · have hsmall : rem.toNat < 128 := by omega
    have hmask : rem &&& 0x7F#64 = rem :=
      BitVec.eq_of_toNat_eq (Nat.and_two_pow_sub_one_of_lt_two_pow (n := 7) hsmall)
    rw [encByte_of_lt hsmall, if_neg h, hmask]
    simpa using congrArg (·.setWidth 8) (setWidth_termByte_low7 hsmall)

/-- The last byte of a value that is not zero has a non-zero payload. -/
theorem encBytes_getLast_payload_ne_zero_of_ne_zero {v : U64} (hv : v ≠ 0#64) :
    ∃ b, (encBytes v).getLast? = some b ∧ payload b ≠ 0#7 := by
  by_cases hsmall : v.toNat < 128
  · refine ⟨encByte v, by rw [encBytes_of_lt v hsmall]; rfl, fun hzero => hv ?_⟩
    have hlow : v.toNat % 128 = 0 := by simpa using congrArg BitVec.toNat hzero
    exact BitVec.eq_of_toNat_eq (by simp; omega)
  · have hlen := encLen_of_ge v (by omega)
    have hpos := encLen_pos (v >>> 7)
    exact encBytes_getLast_payload_ne_zero (by omega)

/-- The tenth byte of every encoding that has one is `0x01`. -/
theorem encBytes_tenth {v : U64} (hv : 2 ^ 63 ≤ v.toNat) : (encBytes v)[9]? = some 0x01#8 := by
  have hlen : encLen v = 10 := (encLen_eq_iff v (by omega)).2 ⟨.inr (by simpa using hv), by have := v.isLt; omega⟩
  have htop : v >>> (7 * 9) = 1#64 := by
    apply BitVec.eq_of_toNat_eq
    have := v.isLt
    simp [Nat.shiftRight_eq_div_pow]
    omega
  rw [encBytes_getElem v 9 (by omega), htop]
  decide

/-- Settles O11, from the recursion `encBytes_of_lt` and `encBytes_of_ge` and the closed form `encBytes_getElem`. -/
theorem encodingRecursionAndClosedForm : Obligations.EncodingRecursionAndClosedForm := by
  refine fun v => ⟨fun h => ?_, fun h => ?_, fun i hi => ?_, encBytes_getLast_payload_ne_zero_of_ne_zero,
    encBytes_tenth⟩
  · rw [encBytes_of_lt v h, encByte_of_lt h]
  · rw [encBytes_of_ge v h, encByte_of_ge h]
  · rw [encBytes_getElem v i hi, encByte_eq_mask]
    simp only [shifted_ge_iff v i hi]

/-- Settles O16: `Len` counts the powers of `2^7` below a value (`encLen_le_iff`). -/
theorem largerValueIsNeverShorter : Obligations.LargerValueIsNeverShorter := by
  refine ⟨fun u v huv => ?_, by decide, by decide⟩
  have hv := (encLen_le_iff v (encLen v) (encLen_pos v)).1 le_rfl
  exact (encLen_le_iff u (encLen v) (encLen_pos v)).2 (by omega)

/-! ## Encoding again what was decoded -/

/-- Payloads one place higher weigh 128 times as much. -/
theorem payloadSum_succ (i : Nat) (ps : List U7) : payloadSum (i + 1) ps = 128 * payloadSum i ps := by
  induction ps generalizing i with
  | nil => rfl
  | cons p ps ih =>
    rw [payloadSum, payloadSum, ih, show 7 * (i + 1) = 7 + 7 * i by omega, Nat.pow_add]
    ring

theorem payloadSum_concat (i : Nat) (ps : List U7) (p : U7) :
    payloadSum i (ps ++ [p]) = payloadSum i ps + p.toNat * 2 ^ (7 * (i + ps.length)) := by
  simp [payloadSum_append, payloadSum]

/-- Payloads of which the last is not zero, or the only one, are those of the encoding of their sum. -/
theorem encBytes_of_payloadSum {v : U64} {ps : List U7} {p : U7} (hp : ps = [] ∨ p ≠ 0#7)
    (hv : v.toNat = payloadSum 0 (ps ++ [p])) : encBytes v = formBytes ps p := by
  induction ps generalizing v with
  | nil =>
    have hlt := p.isLt
    have hsmall : v.toNat = p.toNat := by simpa [payloadSum] using hv
    have hlow : low7 v = p := BitVec.eq_of_toNat_eq (by rw [low7_toNat]; omega)
    rw [encBytes_of_lt v (by omega), encByte_of_lt (by omega), hlow]
    rfl
  | cons q ps ih =>
    have hlt := q.isLt
    have hp : p ≠ 0#7 := by simpa using hp
    have hpos : 0 < p.toNat := Nat.pos_of_ne_zero fun h => hp (BitVec.eq_of_toNat_eq h)
    have hrest : 0 < payloadSum 0 (ps ++ [p]) := by
      rw [payloadSum_concat]
      positivity
    have hsum : v.toNat = q.toNat + 128 * payloadSum 0 (ps ++ [p]) := by
      rw [hv, List.cons_append, payloadSum, payloadSum_succ]
      simp
    have hlow : low7 v = q := BitVec.eq_of_toNat_eq (by rw [low7_toNat]; omega)
    have hshift : (v >>> 7).toNat = payloadSum 0 (ps ++ [p]) := by
      rw [shift7_toNat]
      omega
    rw [encBytes_of_ge v (by omega), encByte_of_ge (by omega), hlow, ih (.inr hp) hshift]
    rfl

/-- What R186 asks of a form of more than one byte. -/
theorem isCanonical_iff {cs : List Byte} {b : Byte} (hcs : ∀ c ∈ cs, contBit c = true) (hb : contBit b = false)
    (hlen : cs.length ≤ 9) :
    isCanonical (cs ++ [b]) = true ↔ cs = [] ∨ payload b ≠ 0#7 ∧ (cs.length = 9 → b = 0x01#8) := by
  have hform : isEncodedForm (cs ++ [b]) = true := isEncodedForm_iff.2 ⟨cs, b, rfl, hcs, hb, hlen⟩
  simp [isCanonical, hform, imp_iff_not_or]

/-- `Enc(v)` is canonical (R186). -/
theorem isCanonical_encBytes (v : U64) : isCanonical (encBytes v) = true := by
  obtain ⟨cs, b, henc, hcs, hb, hlen, -⟩ := encBytes_shape v
  have hten := encLen_le_ten v
  rw [henc, isCanonical_iff hcs hb (by omega)]
  by_cases hone : cs = []
  · exact .inl hone
  · have hpos := List.length_pos_iff.2 hone
    obtain ⟨c, hlast, hpayload⟩ := encBytes_getLast_payload_ne_zero (v := v) (by omega)
    obtain rfl : b = c := by simpa [henc] using hlast
    refine .inr ⟨hpayload, fun hnine => ?_⟩
    obtain ⟨hlarge, -⟩ := (encLen_eq_iff v (k := 10) (by omega)).1 (by omega)
    have htenth := encBytes_tenth (v := v) (by simpa using hlarge)
    simpa [henc, ← hnine] using htenth

/-- The payloads of at most nine bytes, or of ten with the last `0x01`, sum to a value of 64 bits. -/
theorem payloadSum_lt_of_tenth {cs : List Byte} {b : Byte} (hlen : cs.length ≤ 9)
    (hten : cs.length = 9 → b = 0x01#8) : payloadSum 0 (cs.map payload ++ [payload b]) < 2 ^ 64 := by
  by_cases hnine : cs.length = 9
  · have hcs := payloadSum_lt 0 (cs.map payload)
    rw [payloadSum_concat, hten hnine]
    simp only [List.length_map, hnine] at hcs ⊢
    have hone : (payload 0x01#8).toNat = 1 := by decide
    omega
  · have hall := payloadSum_lt 0 (cs.map payload ++ [payload b])
    have hpow : 2 ^ (7 * (0 + (cs.length + 1))) ≤ 2 ^ 63 := Nat.pow_le_pow_right (by omega) (by omega)
    simp only [List.length_append, List.length_map, List.length_singleton] at hall
    omega

/-- A canonical form is the encoding of the value that it accumulates. -/
theorem encBytes_accFrom_of_isCanonical {cs : List Byte} {b : Byte} (hcs : ∀ c ∈ cs, contBit c = true)
    (hb : contBit b = false) (hlen : cs.length ≤ 9) (hcanon : isCanonical (cs ++ [b]) = true) :
    encBytes (accFrom 0 0#64 (cs ++ [b])) = cs ++ [b] := by
  obtain ⟨hp, hten⟩ : (cs.map payload = [] ∨ payload b ≠ 0#7) ∧ (cs.length = 9 → b = 0x01#8) := by
    obtain rfl | ⟨hpayload, hten⟩ := (isCanonical_iff hcs hb hlen).1 hcanon
    · exact ⟨.inl rfl, by simp⟩
    · exact ⟨.inr hpayload, hten⟩
  have hvalue : (accFrom 0 0#64 (cs ++ [b])).toNat = payloadSum 0 (cs.map payload ++ [payload b]) := by
    rw [accFrom_zero, trunc64_toNat, List.map_append, List.map_singleton,
      Nat.mod_eq_of_lt (payloadSum_lt_of_tenth hlen hten)]
  rw [encBytes_of_payloadSum hp hvalue, formBytes, ← map_contByte_payload hcs, termByte_payload hb]

/-- Settles O14: `Enc` gives canonical forms only (`isCanonical_encBytes`), and each is given back
(`encBytes_accFrom_of_isCanonical`). -/
theorem reencodingGivesExactlyCanonicalForms : Obligations.ReencodingGivesExactlyCanonicalForms := by
  intro s v k hdec
  obtain ⟨cs, b, t, rfl, hcs, hb, hlen, rfl, rfl⟩ := decBytes_eq_accept.1 hdec
  have htake : (cs ++ b :: t).take (cs.length + 1) = cs ++ [b] := by simp [List.take_append]
  rw [htake]
  exact ⟨fun henc => henc ▸ isCanonical_encBytes _, encBytes_accFrom_of_isCanonical hcs hb hlen⟩

/-! ## What one byte adds to the accumulator -/

/-- The continuation bit plays no part in `AccStep` (R141). -/
theorem payload_xor_contBit (b : Byte) : payload (b ^^^ 0x80#8) = payload b := by
  apply BitVec.eq_of_getLsbD_eq
  intro j hj
  have hmask : ∀ j < 7, (0x80#8).getLsbD j = false := by decide
  simp [payload, hj, hmask j hj]

/-- Settles O17: `accFrom_toNat` for one byte, whose sum stays below `2^(7(n+1))`, so nothing is truncated. -/
theorem accumulateAddsThePayloadAtItsPlace : Obligations.AccumulateAddsThePayloadAtItsPlace := by
  refine fun acc n b hacc => ⟨by omega, fun hn => ?_, by rw [accStep, accStep, payload_xor_contBit]⟩
  have hsum : payloadSum n.val [payload b] = (payload b).toNat * 2 ^ (7 * n.val) := by simp [payloadSum]
  have hlt := payloadSum_lt n.val [payload b]
  have hpow : 2 ^ (7 * (n.val + 1)) ≤ 2 ^ 63 := Nat.pow_le_pow_right (by omega) (by omega)
  rw [List.length_singleton, hsum] at hlt
  have hstep : (accStep acc n b).toNat = acc.toNat + (payload b).toNat * 2 ^ (7 * n.val) := by
    rw [accStep_eq_accFrom, accFrom_toNat _ _ _ hacc, List.map_singleton, hsum, Nat.mod_eq_of_lt (by omega)]
  exact ⟨hstep, by omega⟩

/-- At index 9 the truncation leaves bit 0 of the payload, as bit 63 (R146, decision D1). -/
theorem accStep_nine (acc : U64) (b : Byte) :
    accStep acc 9 b = acc ||| (BitVec.ofBool (b.getLsbD 0)).setWidth 64 <<< 63 := by
  have hbit : (BitVec.ofBool (b.getLsbD 0)).toNat = b.toNat % 2 := by
    rw [BitVec.toNat_ofBool, BitVec.getLsbD, Nat.testBit_zero]
    obtain h | h := Nat.mod_two_eq_zero_or_one b.toNat <;> simp [h]
  refine congrArg (acc ||| ·) (BitVec.eq_of_toNat_eq ?_)
  rw [trunc64_toNat, BitVec.toNat_shiftLeft, BitVec.toNat_setWidth, hbit, payload_toNat]
  simp only [Nat.shiftLeft_eq]
  show b.toNat % 128 * 2 ^ 63 % 2 ^ 64 = _
  omega

/-- Settles O18: nine bytes `0x80` accumulate nothing, and `accStep_nine` adds the tenth. -/
theorem tenthByteKeepsOnlyPayloadBitZero : Obligations.TenthByteKeepsOnlyPayloadBitZero := by
  refine ⟨accStep_nine, ?_⟩
  rintro b _ rfl hb
  have hacc : accFrom 0 0#64 (List.replicate 9 0x80#8 ++ [b]) = accStep 0#64 9 b := by
    have hnine : accFrom 0 0#64 (List.replicate 9 0x80#8) = 0#64 := by decide
    rw [accFrom_append, hnine]
    rfl
  have hdec := decBytes_of_form (bs := List.replicate 9 0x80#8) [] (by decide) hb (by decide)
  rw [List.append_nil, hacc, accStep_nine] at hdec
  rw [hdec]
  cases b.getLsbD 0 <;> rfl

end Sys2Proof.Machine

/-! PROOFS. 10_state.md sections 2, 3 and 6: the invariant holds after reset, every step keeps it, and it bounds the
accumulator. -/

namespace Sys2Proof.Machine

/-- Settles O50: `step_keeps_inv`, which goes back to one event of each block (`encFire_keeps_inv`,
`decFire_keeps_inv`). -/
theorem stepKeepsBlocksInAgreementWithTheirTraces : Obligations.StepKeepsBlocksInAgreementWithTheirTraces :=
  fun _ _ h hstep => step_keeps_inv h hstep

/-- Settles O51: both phases are `Idle`, which agrees with every trace, and no byte has moved. -/
theorem resetHasBlocksInAgreementWithTheirTraces : Obligations.ResetHasBlocksInAgreementWithTheirTraces :=
  ⟨trivial, trivial, Nat.zero_le 10, Nat.zero_le 10⟩

/-- Settles O52: the accumulator holds the payloads of the `n` bytes consumed (`accFrom_zero_toNat_lt`). -/
theorem accumulatorHasNoBitsAboveItsIndex : Obligations.AccumulatorHasNoBitsAboveItsIndex := by
  rintro s n acc ⟨-, hdec, -⟩ hs
  rw [hs] at hdec
  obtain ⟨bs, before, hlen, -, rfl, -⟩ := hdec
  rw [← hlen]
  exact accFrom_zero_toNat_lt bs

end Sys2Proof.Machine

/-! PROOFS. 40_encoder.md, 41_decoder.md, 30_encoding.md section 4: ENCODE, DECODE and the wire rows, each as one move
of its block. -/

namespace Sys2Proof.Machine

/-! ## ENCODE and DECODE complete -/

/-- Settles O21: `exec_encode_of_accepts`. -/
theorem encodeWritesAllOfEncAndEndsDone : Obligations.EncodeWritesAllOfEncAndEndsDone :=
  fun v s hs has => exec_encode_of_accepts v s hs has

/-- Settles O25: what `Dec` accepts is a form at the front of the source's answers (`exec_decode_of_form`). -/
theorem decodeReadsTheFormAndEndsDone : Obligations.DecodeReadsTheFormAndEndsDone := by
  intro s v k hs hdec
  obtain ⟨more, has, -⟩ := leadBytes_split s.sourceAnswers
  obtain ⟨bs, b, t, hfront, hbs, hb, hlen, rfl, rfl⟩ := decBytes_eq_accept.1 hdec
  have hform : s.sourceAnswers = bs.map SrcAnswer.byte ++ .byte b :: (t.map SrcAnswer.byte ++ more) := by
    have hlead : leadBytes s.sourceAnswers = bs ++ b :: t := hfront
    rw [has, hlead]
    simp
  have htake : s.frontBytes.take (bs.length + 1) = bs ++ [b] := by simp [hfront, List.take_append]
  rw [exec_decode_of_form s bs hs hbs hlen b _ hb hform, htake]
  rfl

/-! ## The wire rows in `Reading` -/

/-- In `Reading(n)` a wire row is read on from there (R85): to its terminator, or to a continuation byte at
index 9. -/
theorem exec_wire_of_reading {i : Instr} {s : State} {n : Fin 10} {acc : U64} (hi : i.kind ≠ .operation)
    (hs : s.dec = .reading n acc) :
    (∃ v k, decAt n acc (encode i) = .accept v (n.val + k) ∧ k ≤ (encode i).length ∧
      exec i s = .next (s.moveDec (.done v) (((encode i).drop k).map SrcDrive.byte ++ s.source)
        (((encode i).take k).map DecEvent.rd))) ∨
    (∃ k, decAt n acc (encode i) = .reject 10 ∧ k + n.val = 10 ∧
      exec i s = .next (s.moveDec (.failed .tooLong) (((encode i).drop k).map SrcDrive.byte ++ s.source)
        (((encode i).take k).map DecEvent.rd))) := by
  have htake (bs t : List Byte) (b : Byte) : (bs ++ b :: t).take (bs.length + 1) = bs ++ [b] := by
    simp [List.take_append]
  have hdrop (bs t : List Byte) (b : Byte) : (bs ++ b :: t).drop (bs.length + 1) = t := by
    simp [List.drop_append]
  rw [exec_of_wire i s hi]
  obtain ⟨bs, b, t, henc, hbs, hb, hlen⟩ | ⟨bs, b, t, henc, hbs, hb, hlen⟩ | ⟨hall, hlen⟩ := byte_shapes n (encode i)
  · obtain ⟨m, hm⟩ : ∃ m : Fin 10, m.val = n.val + bs.length := ⟨⟨_, by omega⟩, rfl⟩
    have hread : readByte m (accFrom n.val acc bs) b = .done (accFrom n.val acc (bs ++ [b])) := by
      rw [readByte_term hb, accStep_eq_accFrom, accFrom_append, hm]
    refine .inl ⟨_, bs.length + 1, by rw [henc, decAt_accept n acc bs b t hbs hb hlen, Nat.add_assoc],
      by simp [henc], ?_⟩
    rw [henc, deliver_end s n m acc bs b t hs hbs hm (by simp [hread]), hread, htake, hdrop]
    rfl
  · obtain ⟨m, hm⟩ : ∃ m : Fin 10, m.val = n.val + bs.length := ⟨⟨_, by omega⟩, rfl⟩
    have hread : readByte m (accFrom n.val acc bs) b = .failed .tooLong := readByte_over hb (hm.trans hlen)
    refine .inr ⟨bs.length + 1, by rw [henc, decAt_reject n acc bs b t hbs hb hlen], by omega, ?_⟩
    rw [henc, deliver_end s n m acc bs b t hs hbs hm (by simp [hread]), hread, htake, hdrop]
    rfl
  · obtain ⟨bs, b, henc, -, -, hnine⟩ := encode_shape i hi
    have hten := hnine (hall b (by simp [henc]))
    simp [henc] at hlen
    omega

/-- Settles O31: `exec_wire_of_reading`. -/
theorem wireRowIsReadOnFromAnyIndex : Obligations.WireRowIsReadOnFromAnyIndex :=
  fun _ _ _ _ hi hs => exec_wire_of_reading hi hs

/-- In `Reading(0)` the row of a form is read to its end (R88): `Dec` accepts all of it with the row's value. -/
theorem exec_form_of_reading_zero (i : Instr) {k : Nat} (hk : i.kind = .form k) {s : State}
    (hs : s.dec = .reading 0 0#64) :
    exec i s = .next { s with
      dec := .done (rowValue i.payloads), decTrace := s.decTrace ++ (encode i).map DecEvent.rd } := by
  have hi : i.kind ≠ .operation := by simp [hk]
  have hdec : decAt 0 0#64 (encode i) = .accept (rowValue i.payloads) k := by
    have h := (decAcceptsRowsWithTheirValue i []).1 k hk
    rw [List.append_nil] at h
    exact h
  obtain ⟨ps, p, henc, hlen, -⟩ := encode_of_form i k hk
  have hall : (encode i).length = k := by simp [henc, formBytes, hlen]
  obtain ⟨v, j, haccept, -, hexec⟩ | ⟨j, hreject, -⟩ := exec_wire_of_reading hi hs
  · obtain ⟨rfl, rfl⟩ : rowValue i.payloads = v ∧ k = j := by simpa [hdec] using haccept
    simpa [State.moveDec, ← hall] using hexec
  · cases hdec.symm.trans hreject

/-- Settles O29: `exec_form_of_reading_zero` for each of the ten rows. -/
theorem varintRowsEndDoneWithTheirValue : Obligations.VarintRowsEndDoneWithTheirValue := by
  intro s hs ends
  have hends (i : Instr) (k : Nat) (hk : i.kind = .form k) : ends i (rowValue i.payloads) :=
    exec_form_of_reading_zero i hk hs
  exact ⟨fun _ => hends _ 1 rfl, fun _ _ => hends _ 2 rfl, fun _ _ _ => hends _ 3 rfl, fun _ _ _ _ => hends _ 4 rfl,
    fun _ _ _ _ _ => hends _ 5 rfl, fun _ _ _ _ _ _ => hends _ 6 rfl, fun _ _ _ _ _ _ _ => hends _ 7 rfl,
    fun _ _ _ _ _ _ _ _ => hends _ 8 rfl, fun _ _ _ _ _ _ _ _ _ => hends _ 9 rfl,
    fun _ _ _ _ _ _ _ _ _ _ => hends _ 10 rfl⟩

/-- Settles O30: a row of ten continuation bytes has no terminator, so it is read to the cap. -/
theorem toolongRowEndsFailedAfterTenBytes : Obligations.ToolongRowEndsFailedAfterTenBytes := by
  intro s acc a b c d e f g h i j hs
  have hreject : decAt 0 acc (encode (.toolong a b c d e f g h i j)) = .reject 10 :=
    decAt_reject 0 acc ([a, b, c, d, e, f, g, h, i].map contByte) (contByte j) [] (by simp) (by simp) rfl
  obtain ⟨v, k, haccept, -⟩ | ⟨k, -, hk, hexec⟩ :=
    exec_wire_of_reading (i := .toolong a b c d e f g h i j) (by simp [Instr.kind]) hs
  · cases hreject.symm.trans haccept
  · obtain rfl : k = 10 := by simpa using hk
    exact hexec

/-! ## The wire rows outside `Reading`, and offers outside `Idle` -/

/-- Settles O32: the delivered bytes stand at the front, and the loop takes none (`readLoop_of_not_reading`). -/
theorem wireRowWaitsOutsideReading : Obligations.WireRowWaitsOutsideReading := by
  intro i s hi hs
  have hnot : ∀ n acc, s.dec ≠ .reading n acc := by
    obtain h | ⟨v, h⟩ | ⟨err, h⟩ := hs <;> simp [h]
  rw [exec_of_wire i s hi]
  exact congrArg Host.Outcome.next (readLoop_of_not_reading _ (s.setSource _) hnot)

theorem exec_encode_of_not_idle (v : U64) {s : State} (hs : s.enc ≠ .idle) : exec (.encode v) s = .next s := by
  show execEncode v s = .next s
  unfold execEncode
  cases h : s.enc with
  | idle => exact absurd h hs
  | _ => rfl

theorem exec_decode_of_not_idle {s : State} (hs : s.dec ≠ .idle) : exec .decode s = .next s := by
  show execDecode s = .next s
  unfold execDecode
  cases h : s.dec with
  | idle => exact absurd h hs
  | _ => rfl

/-- Settles O34: an operation outside `Idle` changes nothing, and there the clock edges do not read the command. -/
theorem operationIsNotTakenOutsideIdle : Obligations.OperationIsNotTakenOutsideIdle := by
  refine ⟨fun v s hs => exec_encode_of_not_idle v hs, fun s hs => exec_decode_of_not_idle hs, fun e v w s hs => ?_,
    fun e v s hs => ?_⟩
  · unfold State.encClock
    cases h : s.enc with
    | idle => exact absurd h hs
    | _ => rfl
  · unfold State.decClock
    cases h : s.dec with
    | idle => exact absurd h hs
    | _ => rfl

/-! ## The start events -/

/-- A start in `Idle` (R142). -/
theorem decEvent_start {s : State} (hs : s.dec = .idle) :
    s.decEvent .start = { s with dec := .reading 0 0#64, decTrace := s.decTrace ++ [.start] } := by
  unfold State.decEvent
  rw [hs]
  rfl

/-- A value taken in `Idle` (R112). -/
theorem encEvent_cmd {s : State} (v : U64) (hs : s.enc = .idle) :
    s.encEvent (.cmd v) = { s with enc := .emit v, encTrace := s.encTrace ++ [.cmd v] } := by
  unfold State.encEvent
  rw [hs]
  simp [encFire, EncEvent.written, State.setEnc, State.append, State.noteEnc]

/-- An edge in `Idle` with `start_valid` takes the start. -/
theorem decClock_idle_start {s : State} {e : DecEdge} (hs : s.dec = .idle) (hrst : e.rst = false)
    (hstart : e.startValid = true) : s.decClock e = s.decEvent .start := by
  simp [State.decClock, hs, hrst, hstart]

/-- An edge in `Idle` with `cmd_valid` takes the value. -/
theorem encClock_idle_cmd {s : State} {e : EncEdge} (hs : s.enc = .idle) (hrst : e.rst = false)
    (hcmd : e.cmdValid = true) : s.encClock e = s.encEvent (.cmd e.cmdValue) := by
  simp [State.encClock, hs, hrst, hcmd]

/-- Settles O35: the start events and the edges that take them. -/
theorem operationsStartFromTheirOwnFixedState : Obligations.OperationsStartFromTheirOwnFixedState := by
  refine ⟨fun s hs => by rw [decEvent_start hs], fun s v hs => by rw [encEvent_cmd v hs],
    fun s e hs hrst hstart => ?_, fun s e hs hrst hcmd => ?_⟩
  · rw [decClock_idle_start hs hrst hstart, decEvent_start hs]
  · rw [encClock_idle_cmd hs hrst hcmd, encEvent_cmd _ hs]

end Sys2Proof.Machine

/-! PROOFS. 10_state.md sections 5 and 6, 41_decoder.md section 2, 60_exceptions.md, 70_reset_and_hazards.md section 1:
one edge of each block's clock, the events it takes, the results that wait, and the outputs of each phase. -/

namespace Sys2Proof.Machine

/-! ## One edge at which the source answers -/

section
variable {s : State} {e : DecEdge} {n : Fin 10} {acc : U64} (hs : s.dec = .reading n acc) (hrst : e.rst = false)
include hs hrst

/-- In `Reading` the edge asks the source's next drive for a byte. -/
theorem decClock_reading_cons {d : SrcDrive} {ds : List SrcDrive} (hsource : s.source = d :: ds) :
    s.decClock e = (s.setSource ds).ask d := by
  simp [State.decClock, State.sourceEdge, hrst, hs, hsource]

/-- An edge at which the source delivers `b` consumes it (R143 to R145). -/
theorem decClock_byte {b : Byte} {ds : List SrcDrive} (hsource : s.source = .byte b :: ds) :
    s.decClock e = { s with dec := readByte n acc b, source := ds, decTrace := s.decTrace ++ [.rd b] } := by
  rw [decClock_reading_cons hs hrst hsource, ask_byte (s.setSource ds) n acc hs (.byte b) b rfl]
  rfl

/-- An edge at which the source fails consumes no byte (R147). -/
theorem decClock_fail {d : SrcDrive} {err : IoInfo} {ds : List SrcDrive} (hsource : s.source = d :: ds)
    (hd : d.answer = some (.fail err)) :
    s.decClock e = { s with dec := .failed (.io err), source := ds, decTrace := s.decTrace ++ [.rdfail err] } := by
  rw [decClock_reading_cons hs hrst hsource, ask_fail (s.setSource ds) n acc hs d err hd]
  rfl

end

/-- Settles O38: `decClock_byte`, where `readByte` is one of three, and `decClock_fail`. -/
theorem sourceEdgeConsumesOneByteOrFails : Obligations.SourceEdgeConsumesOneByteOrFails := by
  refine fun s n acc b e ds hs hrst => ⟨fun hsource => ⟨_, decClock_byte hs hrst hsource, fun hb hn => ?_,
    fun hb hn => readByte_over hb hn, fun hb => readByte_term hb⟩, fun err hsource => ?_⟩
  · exact ⟨⟨n.val + 1, by omega⟩, rfl, readByte_cont hb rfl⟩
  · obtain hsource | hsource := hsource
    · exact decClock_fail hs hrst hsource rfl
    · exact decClock_fail hs hrst hsource rfl

/-! ## The byte events -/

theorem decFire_rd (n : Fin 10) (acc : U64) (b : Byte) : decFire (.reading n acc) (.rd b) = some (readByte n acc b) :=
  rfl

/-- The byte `0x80` has payload 0: it adds nothing (R143). -/
theorem accStep_0x80 (acc : U64) (n : Fin 10) : accStep acc n 0x80#8 = acc := by
  have hpayload : payload 0x80#8 = 0#7 := by decide
  simp [accStep, hpayload, trunc64]

/-- At index 0 a terminator byte is the value (R144). -/
theorem accStep_zero_of_term {b : Byte} (hb : contBit b = false) : accStep 0#64 0 b = b.setWidth 64 := by
  have hlt := (contBit_eq_false_iff b).1 hb
  apply BitVec.eq_of_toNat_eq
  simp [accStep]
  omega

/-- Settles O39: `readByte` in its three cases, at the event (`decFire_rd`) and at the edge (`decClock_byte`). -/
theorem byteEventsMoveTheDecoder : Obligations.ByteEventsMoveTheDecoder := by
  refine ⟨fun n m acc b hm hb => ?_, fun n acc b hb => ?_, fun acc b hb => ?_, by decide⟩
  · have hread : readByte n acc b = .reading m (accStep acc n b) := readByte_cont hb hm
    rw [decFire_rd, ← hread]
    exact ⟨rfl, accStep_0x80 acc n, fun s e ds hs hrst hsource => decClock_byte hs hrst hsource⟩
  · have hread : readByte n acc b = .done (accStep acc n b) := readByte_term hb
    rw [decFire_rd, ← hread]
    refine ⟨rfl, accStep_zero_of_term hb, accStep_nine acc b, fun s e ds hs hrst hsource => ?_⟩
    rw [decClock_byte hs hrst hsource, hread]
    exact ⟨rfl, rfl⟩
  · have hread : readByte 9 acc b = .failed .tooLong := readByte_over hb rfl
    rw [decFire_rd, ← hread]
    exact ⟨rfl, fun s e ds hs hrst hsource => decClock_byte hs hrst hsource⟩

/-- Settles O40: the three events at index 9, and the answer that each setting of the pins gives. -/
theorem failureThenContinuationThenIndexIsTheOrder : Obligations.FailureThenContinuationThenIndexIsTheOrder := by
  refine ⟨fun acc b e => ⟨rfl, fun hb => ?_, fun hb => ?_⟩, fun v b e => ?_, fun r e => ?_, fun b e => ⟨rfl, rfl⟩,
    fun e => ⟨rfl, rfl⟩⟩
  · rw [decFire_rd, readByte_term hb]
  · rw [decFire_rd, readByte_over hb rfl]
  · cases v <;> rfl
  · cases r <;> rfl

/-! ## Results and reset -/

section
variable {s : State} {r : EncResult} (hs : s.enc.result = some r)
include hs

/-- The caller takes the result of an ENCODE (R115, R210). -/
theorem encEvent_res : s.encEvent (.res r) = { s with enc := .idle, encTrace := s.encTrace ++ [.res r] } := by
  simp [State.encEvent, encFire, hs, EncState.handOver, EncEvent.written, State.setEnc, State.append, State.noteEnc]

theorem takeEnc_of_result : s.takeEnc = s.encEvent (.res r) := by
  simp [State.takeEnc, hs]

/-- An edge without reset hands a waiting result over when the caller is ready (R115). -/
theorem encClock_of_result {e : EncEdge} (hrst : e.rst = false) :
    s.encClock e = if e.resReady then s.takeEnc else s := by
  rw [takeEnc_of_result hs]
  cases henc : s.enc with
  | idle => simp [henc, EncState.result] at hs
  | emit rem => simp [henc, EncState.result] at hs
  | done =>
    obtain rfl : .ok = r := by simpa [henc, EncState.result] using hs
    simp [State.encClock, hrst, henc]
  | failed err =>
    obtain rfl : .io err = r := by simpa [henc, EncState.result] using hs
    simp [State.encClock, hrst, henc]

end

section
variable {s : State} {r : DecResult} (hs : s.dec.result = some r)
include hs

/-- The caller takes the result of a DECODE (R148, R210). -/
theorem decEvent_res : s.decEvent (.res r) = { s with dec := .idle, decTrace := s.decTrace ++ [.res r] } := by
  simp [State.decEvent, decFire, hs, DecState.handOver, State.setDec, State.noteDec]

theorem takeDec_of_result : s.takeDec = s.decEvent (.res r) := by
  simp [State.takeDec, hs]

/-- An edge without reset hands a waiting result over when the caller is ready (R148). -/
theorem decClock_of_result {e : DecEdge} (hrst : e.rst = false) :
    s.decClock e = if e.resReady then s.takeDec else s := by
  rw [takeDec_of_result hs]
  cases hdec : s.dec with
  | idle => simp [hdec, DecState.result] at hs
  | reading n acc => simp [hdec, DecState.result] at hs
  | done v =>
    obtain rfl : .ok v = r := by simpa [hdec, DecState.result] using hs
    simp [State.decClock, hrst, hdec]
  | failed err =>
    obtain rfl : .err err = r := by simpa [hdec, DecState.result] using hs
    simp [State.decClock, hrst, hdec]

end

/-- Settles O42: `encClock_of_result` and `decClock_of_result`, and the result events. -/
theorem resultIsHeldUntilTakenThenIdle : Obligations.ResultIsHeldUntilTakenThenIdle :=
  ⟨fun _ _ hs => ⟨(takeEnc_of_result hs).trans (encEvent_res hs), fun _ => encClock_of_result hs⟩,
    fun _ _ hs => ⟨(takeDec_of_result hs).trans (decEvent_res hs), fun _ => decClock_of_result hs⟩⟩

/-- Settles O43: `encClock_reset` and `decClock_reset`. -/
theorem resetForcesIdleAndNothingElse : Obligations.ResetForcesIdleAndNothingElse :=
  ⟨fun _ _ hrst => encClock_reset hrst, fun _ _ hrst => decClock_reset hrst⟩

/-- Settles O44: the phases of the reset state and their outputs. -/
theorem resetLeavesBothBlocksIdle : Obligations.ResetLeavesBothBlocksIdle :=
  ⟨rfl, rfl, rfl, rfl, rfl, rfl, rfl, rfl⟩

/-! ## The outputs -/

/-- Settles O45: the outputs of each phase. -/
theorem outputsShowThePhaseAndTheOutcome : Obligations.OutputsShowThePhaseAndTheOutcome := by
  refine ⟨fun s => ?_, fun s => ?_⟩
  · unfold State.encOut
    cases s.enc <;> simp [encOutputs, EncResult.code]
  · unfold State.decOut
    cases s.dec with
    | failed err => cases err <;> simp [decOutputs, DecResult.code]
    | _ => simp [decOutputs, DecResult.code]

end Sys2Proof.Machine

/-! PROOFS. 10_state.md section 1, 20_memory.md: every turn is a move of one block. What it does to that block is fixed
by the block's phase and its stream's answers, it only appends to the bytes and the events, and it leaves the other
block alone. -/

namespace Sys2Proof.Machine

/-! ## The encoder's moves -/

/-- From a given phase and given answers of the sink, `F` makes one and the same move of the encoder in every state. -/
def MovesEncoder (F : State → Host.Outcome State Fault Refusal) : Prop :=
  ∀ (st : EncState) (ds : List SnkDrive), ∃ e rest bs evs, ∀ s : State, s.enc = st → s.sink = ds →
    F s = .next (s.moveEnc e rest bs evs)

/-- A choice by the encoder's phase and its sink's answers. -/
theorem MovesEncoder.of_cases {F : State → Host.Outcome State Fault Refusal}
    (h : ∀ st ds, ∃ G, MovesEncoder G ∧ ∀ s : State, s.enc = st → s.sink = ds → F s = G s) : MovesEncoder F := by
  intro st ds
  obtain ⟨G, hG, heq⟩ := h st ds
  obtain ⟨e, rest, bs, evs, hmove⟩ := hG st ds
  exact ⟨e, rest, bs, evs, fun s hst hds => (heq s hst hds).trans (hmove s hst hds)⟩

/-- A move after the sink's coming answers were changed. -/
theorem MovesEncoder.setSink {F : State → Host.Outcome State Fault Refusal} (h : MovesEncoder F)
    (f : List SnkDrive → List SnkDrive) : MovesEncoder fun s => F (s.setSink (f s.sink)) := by
  intro st ds
  obtain ⟨e, rest, bs, evs, hmove⟩ := h st (f ds)
  refine ⟨e, rest, bs, evs, fun s hst hds => ?_⟩
  subst hds
  exact hmove (s.setSink (f s.sink)) hst rfl

theorem moveEnc_movesEncoder (e : EncState) (rest : List SnkDrive) (bs : List Byte) (evs : List EncEvent) :
    MovesEncoder fun s => .next (s.moveEnc e rest bs evs) :=
  fun _ _ => ⟨e, rest, bs, evs, fun _ _ _ => rfl⟩

theorem self_movesEncoder : MovesEncoder fun s => .next s :=
  fun st ds => ⟨st, ds, [], [], fun s hst hds => by rw [← hst, ← hds, State.moveEnc_self]⟩

/-- Bytes of another agent reach the sink, not the encoder (R61). -/
theorem append_movesEncoder (bs : List Byte) : MovesEncoder fun s => .next (s.append bs) :=
  fun st ds => ⟨st, ds, bs, [], fun s hst hds => by simp [State.moveEnc, State.append, ← hst, ← hds]⟩

/-- An event of the encoder is fixed by its phase (R112 to R115). -/
theorem encEvent_movesEncoder (ev : EncEvent) : MovesEncoder fun s => .next (s.encEvent ev) := by
  refine .of_cases fun st ds => ?_
  cases hfire : encFire st ev with
  | none => exact ⟨_, self_movesEncoder, fun s hst _ => by simp [State.encEvent, hst, hfire]⟩
  | some e =>
    refine ⟨_, moveEnc_movesEncoder e ds ev.written [ev], fun s hst hds => ?_⟩
    simp only [State.encEvent, hst, hfire, ← hds]
    rfl

theorem writeOn_movesEncoder : MovesEncoder fun s => .next s.writeOn := by
  intro st ds
  obtain ⟨e, rest, bs, evs, hloop⟩ := writeLoop_eq_moveEnc ds st
  exact ⟨e, rest, bs, evs, fun s hst hds => by simp [State.writeOn, hds, hloop s hst hds]⟩

theorem execEncode_movesEncoder (v : U64) : MovesEncoder (exec (.encode v)) := by
  refine .of_cases fun st ds => ?_
  by_cases hidle : st = .idle
  · obtain ⟨e, rest, bs, evs, hmove⟩ := exec_encode_eq_moveEnc v ds
    exact ⟨_, moveEnc_movesEncoder e rest bs evs, fun s hst hds => hmove s (hst.trans hidle) hds⟩
  · exact ⟨_, self_movesEncoder, fun s hst _ => exec_encode_of_not_idle v (hst ▸ hidle)⟩

theorem takeEnc_movesEncoder : MovesEncoder fun s => .next s.takeEnc := by
  refine .of_cases fun st ds => ?_
  cases hresult : st.result with
  | none => exact ⟨_, self_movesEncoder, fun s hst _ => by simp [State.takeEnc, hst, hresult]⟩
  | some r =>
    exact ⟨_, encEvent_movesEncoder (.res r),
      fun s hst _ => congrArg Host.Outcome.next (takeEnc_of_result (hst ▸ hresult))⟩

/-- An edge in each phase (10_state.md R33): a result waits or is taken, a value is taken or not, and in `Emit` the
sink's next drive decides. -/
theorem encClock_movesEncoder (e : EncEdge) : MovesEncoder fun s => .next (s.encClock e) := by
  refine .of_cases fun st ds => ?_
  cases hrst : e.rst with
  | true =>
    refine ⟨_, moveEnc_movesEncoder .idle ds [] [], fun s _ hds => ?_⟩
    simp [encClock_reset hrst, State.moveEnc, State.setEnc, ← hds]
  | false =>
    cases hresult : st.result with
    | some r =>
      cases hready : e.resReady with
      | true => exact ⟨_, takeEnc_movesEncoder, fun s hst _ => by
          simp [encClock_of_result (hst ▸ hresult : s.enc.result = some r) hrst, hready]⟩
      | false => exact ⟨_, self_movesEncoder, fun s hst _ => by
          simp [encClock_of_result (hst ▸ hresult : s.enc.result = some r) hrst, hready]⟩
    | none =>
      cases st with
      | done => cases hresult
      | failed err => cases hresult
      | idle =>
        cases hcmd : e.cmdValid with
        | false =>
          exact ⟨_, self_movesEncoder, fun s hst _ => congrArg Host.Outcome.next (encClock_idle hrst hst hcmd)⟩
        | true =>
          exact ⟨_, encEvent_movesEncoder (.cmd e.cmdValue),
            fun s hst _ => congrArg Host.Outcome.next (encClock_idle_cmd hst hrst hcmd)⟩
      | emit rem =>
        cases ds with
        | nil =>
          exact ⟨_, self_movesEncoder, fun s hst hds => congrArg Host.Outcome.next (encClock_emit_nil hrst hst hds)⟩
        | cons d ds =>
          obtain ⟨e', bs, evs, hoffer⟩ := offer_eq_moveEnc d rem
          exact ⟨_, moveEnc_movesEncoder e' ds bs evs, fun s hst hds =>
            congrArg Host.Outcome.next ((encClock_emit_cons hrst hst hds).trans (hoffer s ds hst))⟩

/-! ## The decoder's moves -/

/-- From a given phase and given answers of the source, `F` makes one and the same move of the decoder in every
state. -/
def MovesDecoder (F : State → Host.Outcome State Fault Refusal) : Prop :=
  ∀ (st : DecState) (ds : List SrcDrive), ∃ d rest evs, ∀ s : State, s.dec = st → s.source = ds →
    F s = .next (s.moveDec d rest evs)

/-- A choice by the decoder's phase and its source's answers. -/
theorem MovesDecoder.of_cases {F : State → Host.Outcome State Fault Refusal}
    (h : ∀ st ds, ∃ G, MovesDecoder G ∧ ∀ s : State, s.dec = st → s.source = ds → F s = G s) : MovesDecoder F := by
  intro st ds
  obtain ⟨G, hG, heq⟩ := h st ds
  obtain ⟨d, rest, evs, hmove⟩ := hG st ds
  exact ⟨d, rest, evs, fun s hst hds => (heq s hst hds).trans (hmove s hst hds)⟩

/-- A move after the source's coming answers were changed. -/
theorem MovesDecoder.setSource {F : State → Host.Outcome State Fault Refusal} (h : MovesDecoder F)
    (f : List SrcDrive → List SrcDrive) : MovesDecoder fun s => F (s.setSource (f s.source)) := by
  intro st ds
  obtain ⟨d, rest, evs, hmove⟩ := h st (f ds)
  refine ⟨d, rest, evs, fun s hst hds => ?_⟩
  subst hds
  exact hmove (s.setSource (f s.source)) hst rfl

theorem moveDec_movesDecoder (d : DecState) (rest : List SrcDrive) (evs : List DecEvent) :
    MovesDecoder fun s => .next (s.moveDec d rest evs) :=
  fun _ _ => ⟨d, rest, evs, fun _ _ _ => rfl⟩

theorem self_movesDecoder : MovesDecoder fun s => .next s :=
  fun st ds => ⟨st, ds, [], fun s hst hds => by rw [← hst, ← hds, State.moveDec_self]⟩

/-- An event of the decoder is fixed by its phase (R142 to R148). -/
theorem decEvent_movesDecoder (ev : DecEvent) : MovesDecoder fun s => .next (s.decEvent ev) := by
  refine .of_cases fun st ds => ?_
  cases hfire : decFire st ev with
  | none => exact ⟨_, self_movesDecoder, fun s hst _ => by simp [State.decEvent, hst, hfire]⟩
  | some d =>
    refine ⟨_, moveDec_movesDecoder d ds [ev], fun s hst hds => ?_⟩
    simp only [State.decEvent, hst, hfire, ← hds]
    rfl

theorem readOn_movesDecoder : MovesDecoder fun s => .next s.readOn := by
  intro st ds
  obtain ⟨d, rest, evs, hloop⟩ := readLoop_eq_moveDec ds st
  exact ⟨d, rest, evs, fun s hst hds => by simp [State.readOn, hds, hloop s hst hds]⟩

theorem execDecode_movesDecoder : MovesDecoder (exec .decode) := by
  refine .of_cases fun st ds => ?_
  by_cases hidle : st = .idle
  · obtain ⟨d, rest, evs, hmove⟩ := exec_decode_eq_moveDec ds
    exact ⟨_, moveDec_movesDecoder d rest evs, fun s hst hds => hmove s (hst.trans hidle) hds⟩
  · exact ⟨_, self_movesDecoder, fun s hst _ => exec_decode_of_not_idle (hst ▸ hidle)⟩

/-- A wire row puts its bytes at the front of the source, and the decoder reads on (log entry 5). -/
theorem execWire_movesDecoder {i : Instr} (hi : i.kind ≠ .operation) : MovesDecoder (exec i) :=
  .of_cases fun _ _ => ⟨_, readOn_movesDecoder.setSource ((encode i).map SrcDrive.byte ++ ·),
    fun s _ _ => exec_of_wire i s hi⟩

/-- Every instruction but ENCODE is a move of the decoder. -/
theorem exec_movesDecoder {i : Instr} (hi : ∀ v, i ≠ .encode v) : MovesDecoder (exec i) := by
  by_cases hkind : i.kind = .operation
  · cases i with
    | encode v => exact absurd rfl (hi v)
    | decode => exact execDecode_movesDecoder
    | _ => cases hkind
  · exact execWire_movesDecoder hkind

/-- A row is fetched by a decoder in `Reading`, when it stands at the front of the source (log entry 5). -/
theorem fetchWire_eq_some_iff {s : State} {i : Instr} :
    s.fetchWire = some i ↔ ∃ n acc rest, s.dec = .reading n acc ∧ decode s.frontBytes = .form i rest := by
  unfold State.fetchWire
  cases s.dec with
  | reading n acc => cases decode s.frontBytes <;> simp
  | _ => simp

/-- The source's turn runs the row that is fetched, and without one reads on. -/
theorem stepWire_movesDecoder : MovesDecoder stepWire := by
  refine .of_cases fun st ds => ?_
  by_cases hrow : ∃ n acc i rest, st = .reading n acc ∧ decode (leadBytes (ds.filterMap SrcDrive.answer)) = .form i rest
  · obtain ⟨n, acc, i, rest, hst, hdec⟩ := hrow
    obtain ⟨hi, -, -⟩ := encodingADecodedRowGivesItsBytes _ i rest hdec
    refine ⟨_, (execWire_movesDecoder hi).setSource (pastAnswers SrcDrive.answer (encode i).length), ?_⟩
    rintro s hs rfl
    have hfetch : s.fetchWire = some i := fetchWire_eq_some_iff.2 ⟨n, acc, rest, hs.trans hst, hdec⟩
    simp only [stepWire, hfetch]
    rfl
  · refine ⟨_, readOn_movesDecoder, ?_⟩
    rintro s hs rfl
    have hfetch : s.fetchWire = none := by
      refine Option.eq_none_iff_forall_ne_some.2 fun i hfetch => hrow ?_
      obtain ⟨n, acc, rest, hdec, hfront⟩ := fetchWire_eq_some_iff.1 hfetch
      exact ⟨n, acc, i, rest, hs.symm.trans hdec, hfront⟩
    simp only [stepWire, hfetch]

theorem takeDec_movesDecoder : MovesDecoder fun s => .next s.takeDec := by
  refine .of_cases fun st ds => ?_
  cases hresult : st.result with
  | none => exact ⟨_, self_movesDecoder, fun s hst _ => by simp [State.takeDec, hst, hresult]⟩
  | some r =>
    exact ⟨_, decEvent_movesDecoder (.res r),
      fun s hst _ => congrArg Host.Outcome.next (takeDec_of_result (hst ▸ hresult))⟩

theorem decClock_idle {s : State} {e : DecEdge} (hrst : e.rst = false) (hs : s.dec = .idle)
    (hstart : e.startValid = false) : s.decClock e = s := by
  simp [State.decClock, hrst, hs, hstart]

/-- An edge in each phase (10_state.md R34): a result waits or is taken, a start is taken or not, and in `Reading` the
source's next drive decides. -/
theorem decClock_movesDecoder (e : DecEdge) : MovesDecoder fun s => .next (s.decClock e) := by
  refine .of_cases fun st ds => ?_
  cases hrst : e.rst with
  | true =>
    refine ⟨_, moveDec_movesDecoder .idle ds [], fun s _ hds => ?_⟩
    simp [decClock_reset hrst, State.moveDec, State.setDec, ← hds]
  | false =>
    cases hresult : st.result with
    | some r =>
      cases hready : e.resReady with
      | true => exact ⟨_, takeDec_movesDecoder, fun s hst _ => by
          simp [decClock_of_result (hst ▸ hresult : s.dec.result = some r) hrst, hready]⟩
      | false => exact ⟨_, self_movesDecoder, fun s hst _ => by
          simp [decClock_of_result (hst ▸ hresult : s.dec.result = some r) hrst, hready]⟩
    | none =>
      cases st with
      | done v => cases hresult
      | failed err => cases hresult
      | idle =>
        cases hstart : e.startValid with
        | false =>
          exact ⟨_, self_movesDecoder, fun s hst _ => congrArg Host.Outcome.next (decClock_idle hrst hst hstart)⟩
        | true =>
          exact ⟨_, decEvent_movesDecoder .start,
            fun s hst _ => congrArg Host.Outcome.next (decClock_idle_start hst hrst hstart)⟩
      | reading n acc =>
        cases ds with
        | nil =>
          exact ⟨_, self_movesDecoder, fun s hst hds =>
            congrArg Host.Outcome.next (decClock_reading_nil hst hrst hds)⟩
        | cons d ds =>
          obtain ⟨d', evs, hask⟩ := ask_eq_moveDec d n acc
          exact ⟨_, moveDec_movesDecoder d' ds evs, fun s hst hds =>
            congrArg Host.Outcome.next ((decClock_reading_cons hst hrst hds).trans (hask s ds hst))⟩

/-! ## Every turn is a move of one block -/

theorem stepTurn_moves (t : Turn) : MovesEncoder (stepTurn t) ∨ MovesDecoder (stepTurn t) := by
  cases t with
  | encode v => exact .inl (execEncode_movesEncoder v)
  | decode => exact .inr execDecode_movesDecoder
  | wire => exact .inr stepWire_movesDecoder
  | env t =>
    cases t with
    | takeEnc => exact .inl takeEnc_movesEncoder
    | takeDec => exact .inr takeDec_movesDecoder
    | resumeEnc => exact .inl writeOn_movesEncoder
    | edgeEnc e => exact .inl (encClock_movesEncoder e)
    | edgeDec e => exact .inr (decClock_movesDecoder e)
    | grant d => exact .inl (self_movesEncoder.setSink (· ++ [d]))
    | feed d => exact .inr (self_movesDecoder.setSource (· ++ [d]))
    | foreignWrite b => exact .inl (append_movesEncoder [b])
    | foreignRead => exact .inr (self_movesDecoder.setSource (pastAnswers SrcDrive.answer 1))

section
variable {F : State → Host.Outcome State Fault Refusal} {s t s' t' : State}

theorem MovesEncoder.total (h : MovesEncoder F) (s : State) : ∃ e rest bs evs, F s = .next (s.moveEnc e rest bs evs) := by
  obtain ⟨e, rest, bs, evs, hmove⟩ := h s.enc s.sink
  exact ⟨e, rest, bs, evs, hmove s rfl rfl⟩

theorem MovesDecoder.total (h : MovesDecoder F) (s : State) : ∃ d rest evs, F s = .next (s.moveDec d rest evs) := by
  obtain ⟨d, rest, evs, hmove⟩ := h s.dec s.source
  exact ⟨d, rest, evs, hmove s rfl rfl⟩

/-- What a move makes of the encoder depends on the encoder's part alone. -/
theorem MovesEncoder.sameEncoder (h : MovesEncoder F) (hs : F s = .next s') (ht : F t = .next t')
    (hsame : SameEncoder s t) : SameEncoder s' t' := by
  obtain ⟨henc, hsink, hsunk, htrace⟩ := hsame
  obtain ⟨e, rest, bs, evs, hmove⟩ := h s.enc s.sink
  cases hs.symm.trans (hmove s rfl rfl)
  cases ht.symm.trans (hmove t henc.symm hsink.symm)
  exact ⟨rfl, rfl, congrArg (· ++ bs) hsunk, congrArg (· ++ evs) htrace⟩

/-- What a move makes of the decoder depends on the decoder's part alone. -/
theorem MovesDecoder.sameDecoder (h : MovesDecoder F) (hs : F s = .next s') (ht : F t = .next t')
    (hsame : SameDecoder s t) : SameDecoder s' t' := by
  obtain ⟨hdec, hsource, htrace⟩ := hsame
  obtain ⟨d, rest, evs, hmove⟩ := h s.dec s.source
  cases hs.symm.trans (hmove s rfl rfl)
  cases ht.symm.trans (hmove t hdec.symm hsource.symm)
  exact ⟨rfl, rfl, congrArg (· ++ evs) htrace⟩

/-- A move of the encoder leaves the decoder's part, the agenda and the counter. -/
theorem MovesEncoder.frame (h : MovesEncoder F) (hs : F s = .next s') : SameDecoder s s' ∧ s'.agenda = s.agenda := by
  obtain ⟨e, rest, bs, evs, hmove⟩ := h.total s
  cases hs.symm.trans hmove
  exact ⟨⟨rfl, rfl, rfl⟩, rfl⟩

/-- A move of the decoder leaves the encoder's part, the agenda and the counter. -/
theorem MovesDecoder.frame (h : MovesDecoder F) (hs : F s = .next s') : SameEncoder s s' ∧ s'.agenda = s.agenda := by
  obtain ⟨d, rest, evs, hmove⟩ := h.total s
  cases hs.symm.trans hmove
  exact ⟨⟨rfl, rfl, rfl, rfl⟩, rfl⟩

end

section
variable {s t s' t' : State}

/-- Two states agree on the encoder still after each kept its own. -/
theorem SameEncoder.of_kept (h : SameEncoder s t) (hs : SameEncoder s s') (ht : SameEncoder t t') :
    SameEncoder s' t' := by
  obtain ⟨henc, hsink, hsunk, htrace⟩ := hs
  obtain ⟨henc', hsink', hsunk', htrace'⟩ := ht
  simpa [SameEncoder, henc, hsink, hsunk, htrace, henc', hsink', hsunk', htrace'] using h

/-- Two states agree on the decoder still after each kept its own. -/
theorem SameDecoder.of_kept (h : SameDecoder s t) (hs : SameDecoder s s') (ht : SameDecoder t t') :
    SameDecoder s' t' := by
  obtain ⟨hdec, hsource, htrace⟩ := hs
  obtain ⟨hdec', hsource', htrace'⟩ := ht
  simpa [SameDecoder, hdec, hsource, htrace, hdec', hsource', htrace'] using h

end

/-- Settles O33: such an instruction is a move of the decoder (`exec_movesDecoder`). -/
theorem decodeAndWireRowsLeaveTheEncoderAlone : Obligations.DecodeAndWireRowsLeaveTheEncoderAlone := by
  intro i s t hi hexec
  obtain ⟨d, rest, evs, hmove⟩ := (exec_movesDecoder hi).total s
  cases hexec.symm.trans hmove
  exact ⟨rfl, rfl, rfl, rfl, rfl, rfl, evs, rfl⟩

/-! ## The step -/

theorem step_of_nil {s : State} (hs : s.agenda = []) : step s = .next s.advance := by
  simp [step, hs]

theorem step_of_cons {s : State} {t : Turn} {turns : List Turn} (hs : s.agenda = t :: turns) :
    step s = stepTurn t s.advance := by
  simp [step, hs]

theorem advance_of_cons {s : State} {t : Turn} {turns : List Turn} (hs : s.agenda = t :: turns) :
    s.advance = { s with agenda := turns, tick := s.tick + 1 } := by
  simp [State.advance, hs]

/-- A step is a move of one block after the turn was taken. -/
theorem step_moves (s : State) : (∃ e rest bs evs, step s = .next (s.advance.moveEnc e rest bs evs)) ∨
    ∃ d rest evs, step s = .next (s.advance.moveDec d rest evs) := by
  cases hs : s.agenda with
  | nil => exact .inl (by rw [step_of_nil hs]; exact self_movesEncoder.total s.advance)
  | cons t turns =>
    rw [step_of_cons hs]
    exact (stepTurn_moves t).imp (·.total _) (·.total _)

/-- Settles O46: the row is fetched (`fetchWire_eq_some_iff`). -/
theorem stepRunsTheDecodedWireRow : Obligations.StepRunsTheDecodedWireRow := by
  intro s n acc i rest turns hs hagenda hdec _
  have hfetch : s.advance.fetchWire = some i := fetchWire_eq_some_iff.2 ⟨n, acc, rest, hs, hdec⟩
  rw [step_of_cons hagenda, advance_of_cons hagenda]
  rw [advance_of_cons hagenda] at hfetch
  simp only [stepTurn, stepWire, hfetch]
  rfl

/-- Settles O47: the turn in front, after it was taken. -/
theorem stepRunsTheCalledOperation : Obligations.StepRunsTheCalledOperation := by
  refine ⟨fun s v turns hs => ?_, fun s turns hs => ?_, fun s t turns hs => ?_, fun s hs => ?_⟩
  · rw [step_of_cons hs, advance_of_cons hs]
    rfl
  · rw [step_of_cons hs, advance_of_cons hs]
    rfl
  · rw [step_of_cons hs, advance_of_cons hs]
    rfl
  · simp [step_of_nil hs, State.advance, hs]

/-- Settles O48: a step is a move of one block (`step_moves`). -/
theorem writtenBytesAndEventsAreNeverTakenBack : Obligations.WrittenBytesAndEventsAreNeverTakenBack := by
  intro s t hstep
  obtain ⟨e, rest, bs, evs, hmove⟩ | ⟨d, rest, evs, hmove⟩ := step_moves s
  · cases hstep.symm.trans hmove
    exact ⟨⟨bs, rfl⟩, ⟨evs, rfl⟩, ⟨[], (List.append_nil _).symm⟩, .inr ⟨rfl, rfl, rfl⟩⟩
  · cases hstep.symm.trans hmove
    exact ⟨⟨[], (List.append_nil _).symm⟩, ⟨[], (List.append_nil _).symm⟩, ⟨evs, rfl⟩, .inl ⟨rfl, rfl, rfl, rfl⟩⟩

/-- Settles O49: a move answers a next state. -/
theorem everyInstructionAndStepAnswersANextState : Obligations.EveryInstructionAndStepAnswersANextState := by
  refine ⟨fun i s => ?_, fun s => ?_⟩
  · by_cases hi : ∃ v, i = .encode v
    · obtain ⟨v, rfl⟩ := hi
      obtain ⟨e, rest, bs, evs, hmove⟩ := (execEncode_movesEncoder v).total s
      exact ⟨_, hmove⟩
    · obtain ⟨d, rest, evs, hmove⟩ := (exec_movesDecoder (not_exists.1 hi)).total s
      exact ⟨_, hmove⟩
  · obtain ⟨e, rest, bs, evs, hmove⟩ | ⟨d, rest, evs, hmove⟩ := step_moves s
    · exact ⟨_, hmove⟩
    · exact ⟨_, hmove⟩

/-! ## The two blocks do not influence each other -/

/-- One step of two machines whose turn is the same. -/
theorem step_keeps_sameness {s t s' t' : State} (hagenda : s.agenda = t.agenda) (hs : step s = .next s')
    (ht : step t = .next t') :
    s'.agenda = t'.agenda ∧ (SameEncoder s t → SameEncoder s' t') ∧ (SameDecoder s t → SameDecoder s' t') := by
  have htail : s.advance.agenda = t.advance.agenda := congrArg List.tail hagenda
  cases hturns : s.agenda with
  | nil =>
    cases hs.symm.trans (step_of_nil hturns)
    cases ht.symm.trans (step_of_nil (hagenda.symm.trans hturns))
    exact ⟨htail, id, id⟩
  | cons turn turns =>
    rw [step_of_cons hturns] at hs
    rw [step_of_cons (hagenda.symm.trans hturns)] at ht
    obtain hmoves | hmoves := stepTurn_moves turn
    · obtain ⟨hdec, hagendaS⟩ := hmoves.frame hs
      obtain ⟨hdec', hagendaT⟩ := hmoves.frame ht
      exact ⟨hagendaS.trans (htail.trans hagendaT.symm),
        fun h => hmoves.sameEncoder (s := s.advance) (t := t.advance) hs ht h, fun h => h.of_kept hdec hdec'⟩
    · obtain ⟨henc, hagendaS⟩ := hmoves.frame hs
      obtain ⟨henc', hagendaT⟩ := hmoves.frame ht
      exact ⟨hagendaS.trans (htail.trans hagendaT.symm), fun h => h.of_kept henc henc',
        fun h => hmoves.sameDecoder (s := s.advance) (t := t.advance) hs ht h⟩

/-- Settles O53: by induction on the number of steps. -/
theorem blocksDoNotInfluenceEachOther : Obligations.BlocksDoNotInfluenceEachOther := by
  intro k
  induction k with
  | zero =>
    intro s t s' t' _ hs ht
    cases hs
    cases ht
    exact ⟨id, id⟩
  | succ k ih =>
    intro s t s' t' hagenda hs ht
    obtain ⟨u, hu⟩ := everyInstructionAndStepAnswersANextState.2 s
    obtain ⟨w, hw⟩ := everyInstructionAndStepAnswersANextState.2 t
    rw [runSteps_succ, hu] at hs
    rw [runSteps_succ, hw] at ht
    obtain ⟨hnext, henc, hdec⟩ := step_keeps_sameness hagenda hu hw
    obtain ⟨henc', hdec'⟩ := ih u w s' t' hnext hs ht
    exact ⟨henc' ∘ henc, hdec' ∘ hdec⟩

end Sys2Proof.Machine

/-! PROOFS. 40_encoder.md, 41_decoder.md and 70_reset_and_hazards.md section 4, edge by edge: the clock edges make what
the operations make as one piece, an ENCODE takes `Len(v) + 2` edges, and answered operations end. -/

namespace Sys2Proof.Machine

/-! ## The agenda and the counter beside a run -/

/-- The state in which the turns `turns` come next and the counter stands at `k`. -/
def State.timed (s : State) (turns : List Turn) (k : Nat) : State := { s with agenda := turns, tick := k }

/-- What changes the encoder's part alone does not read the agenda and the counter. -/
theorem EncoderOnly.timed {f : State → State} (h : EncoderOnly f) (s : State) (turns : List Turn) (k : Nat) :
    f (s.timed turns k) = (f s).timed turns k := by
  obtain ⟨g, hg⟩ := h
  rw [hg, hg]
  rfl

/-- What changes the decoder's part alone does not read the agenda and the counter. -/
theorem DecoderOnly.timed {f : State → State} (h : DecoderOnly f) (s : State) (turns : List Turn) (k : Nat) :
    f (s.timed turns k) = (f s).timed turns k := by
  obtain ⟨g, hg⟩ := h
  rw [hg, hg]
  rfl

theorem State.timed_of_agenda {s : State} {turns : List Turn} (h : s.agenda = turns) (k : Nat) :
    s.timed turns k = { s with tick := k } := by
  subst h
  rfl

/-- A move of the encoder does not read the agenda and the counter. -/
theorem MovesEncoder.timed {f : State → State} (h : MovesEncoder fun s => .next (f s)) (s : State)
    (turns : List Turn) (k : Nat) : f (s.timed turns k) = (f s).timed turns k := by
  obtain ⟨e, rest, bs, evs, hmove⟩ := h s.enc s.sink
  rw [Host.Outcome.next.inj (hmove s rfl rfl), Host.Outcome.next.inj (hmove (s.timed turns k) rfl rfl)]
  rfl

/-- A move of the decoder does not read the agenda and the counter. -/
theorem MovesDecoder.timed {f : State → State} (h : MovesDecoder fun s => .next (f s)) (s : State)
    (turns : List Turn) (k : Nat) : f (s.timed turns k) = (f s).timed turns k := by
  obtain ⟨d, rest, evs, hmove⟩ := h s.dec s.source
  rw [Host.Outcome.next.inj (hmove s rfl rfl), Host.Outcome.next.inj (hmove (s.timed turns k) rfl rfl)]
  rfl

theorem EncoderOnly.agenda {f : State → State} (h : EncoderOnly f) (s : State) : (f s).agenda = s.agenda := by
  obtain ⟨g, hg⟩ := h
  rw [hg]
  rfl

theorem DecoderOnly.agenda {f : State → State} (h : DecoderOnly f) (s : State) : (f s).agenda = s.agenda := by
  obtain ⟨g, hg⟩ := h
  rw [hg]
  rfl

/-- A run whose first turn is the environment's. -/
theorem runSteps_env (m : Nat) (t : EnvTurn) (turns : List Turn) (s : State) (k : Nat) :
    runSteps (m + 1) (s.timed (.env t :: turns) k) = runSteps m ((s.timed turns (k + 1)).envTurn t) := by
  rw [runSteps_succ]
  rfl

/-- Turns that change nothing, whatever the agenda and the counter, are passed over. -/
theorem runSteps_replicate_of_fixed {t : EnvTurn} {s : State}
    (hfixed : ∀ (turns : List Turn) (k : Nat), (s.timed turns k).envTurn t = s.timed turns k) (m : Nat)
    (turns : List Turn) (k : Nat) :
    runSteps m (s.timed (List.replicate m (.env t) ++ turns) k) = .next (s.timed turns (k + m)) := by
  induction m generalizing k with
  | zero => rfl
  | succ m ih =>
    rw [List.replicate_succ, List.cons_append, runSteps_env, hfixed, ih, Nat.add_right_comm, Nat.add_assoc]

/-! ## The edges and the operation as one piece -/

/-- The encoder's edge with no input from its caller. -/
def quietEnc : EncEdge := ⟨false, false, 0#64, false⟩

/-- Outside `Emit` an edge with no input changes nothing (R112, R115). -/
theorem encClock_quiet_of_not_emit {s : State} (hs : ∀ rem, s.enc ≠ .emit rem) : s.encClock quietEnc = s := by
  cases henc : s.enc with
  | emit rem => exact absurd henc (hs rem)
  | idle => exact encClock_idle rfl henc rfl
  | done => exact encClock_result_waits rfl (by rw [henc]; rfl) rfl
  | failed err => exact encClock_result_waits rfl (by rw [henc]; rfl) rfl

/-- One quiet edge for each coming answer of the sink makes what the encoder's loop makes. -/
theorem runSteps_quietEncEdges (ds : List SnkDrive) (s : State) (turns : List Turn) (k : Nat) (hsink : s.sink = ds) :
    runSteps ds.length (s.timed (List.replicate ds.length quietEncEdge ++ turns) k) =
      .next ((writeLoop ds s).timed turns (k + ds.length)) := by
  induction ds generalizing s k with
  | nil => rfl
  | cons d ds ih =>
    by_cases hs : ∃ rem, s.enc = .emit rem
    · obtain ⟨rem, hs⟩ := hs
      obtain ⟨e, bs, evs, hoffer⟩ := offer_eq_moveEnc d rem
      have hedge (turns : List Turn) (k : Nat) :
          (s.timed turns k).encClock quietEnc = ((s.setSink ds).offer d).timed turns k := by
        rw [← (offer_encoderOnly d).timed]
        exact encClock_emit_cons (s := s.timed turns k) rfl hs hsink
      have hrest : ((s.setSink ds).offer d).sink = ds := by rw [hoffer s ds hs]; rfl
      rw [writeLoop_cons d ds s rem hs]
      calc runSteps (ds.length + 1) (s.timed (quietEncEdge :: List.replicate ds.length quietEncEdge ++ turns) k)
        _ = runSteps ds.length ((s.timed (List.replicate ds.length quietEncEdge ++ turns) (k + 1)).encClock quietEnc) :=
          runSteps_env ds.length (.edgeEnc quietEnc) _ s k
        _ = .next ((writeLoop ds ((s.setSink ds).offer d)).timed turns (k + 1 + ds.length)) := by
          rw [hedge, ih _ _ hrest]
        _ = _ := by rw [List.length_cons, Nat.add_right_comm, Nat.add_assoc]
    · rw [writeLoop_of_not_emit _ s (not_exists.1 hs)]
      exact runSteps_replicate_of_fixed (t := .edgeEnc quietEnc)
        (fun turns k => encClock_quiet_of_not_emit (s := s.timed turns k) (not_exists.1 hs)) _ turns k

/-- The edge that takes a value, beside the agenda and the counter (R112). -/
theorem runSteps_cmdEdge (m : Nat) (v : U64) (s : State) (turns : List Turn) (k : Nat) (hs : s.enc = .idle) :
    runSteps (m + 1) (s.timed (cmdEdge v :: turns) k) = runSteps m ((s.encEvent (.cmd v)).timed turns (k + 1)) := by
  have hedge : (s.timed turns (k + 1)).encClock ⟨false, true, v, false⟩ =
      (s.encEvent (.cmd v)).timed turns (k + 1) :=
    (encClock_idle_cmd (s := s.timed turns (k + 1)) hs rfl rfl).trans ((encEvent_encoderOnly (.cmd v)).timed s _ _)
  rw [← hedge]
  exact runSteps_env m (.edgeEnc ⟨false, true, v, false⟩) turns s k

/-- Settles O54: the first edge takes the value as ENCODE does (`exec_encode_of_idle`), and the others make the loop
(`runSteps_quietEncEdges`). -/
theorem encoderEdgesAgreeWithTheOperation : Obligations.EncoderEdgesAgreeWithTheOperation := by
  intro v s hs
  have hexec : exec (.encode v) s = .next (writeLoop s.sink (s.encEvent (.cmd v))) := by
    rw [encEvent_cmd v hs]
    exact exec_encode_of_idle v s hs
  have hsink : (s.encEvent (.cmd v)).sink = s.sink := by rw [encEvent_cmd v hs]
  have hagenda : (writeLoop s.sink (s.encEvent (.cmd v))).agenda = s.agenda :=
    ((writeLoop_encoderOnly s.sink).agenda _).trans ((encEvent_encoderOnly (.cmd v)).agenda s)
  refine ⟨_, hexec, ?_⟩
  calc runSteps (s.sink.length + 1)
        (s.timed (cmdEdge v :: (List.replicate s.sink.length quietEncEdge ++ s.agenda)) s.tick)
    _ = .next ((writeLoop s.sink (s.encEvent (.cmd v))).timed s.agenda (s.tick + 1 + s.sink.length)) := by
      rw [runSteps_cmdEdge _ v s _ _ hs, runSteps_quietEncEdges s.sink _ _ _ hsink]
    _ = _ := by rw [State.timed_of_agenda hagenda, Nat.add_assoc, Nat.add_comm 1]

/-- The decoder's edge with no input from its caller. -/
def quietDec : DecEdge := ⟨false, false, false⟩

/-- Outside `Reading` an edge with no input changes nothing (R142, R148). -/
theorem decClock_quiet_of_not_reading {s : State} (hs : ¬ ∃ n acc, s.dec = .reading n acc) :
    s.decClock quietDec = s := by
  cases hdec : s.dec with
  | reading n acc => exact absurd ⟨n, acc, hdec⟩ hs
  | idle => exact decClock_idle rfl hdec rfl
  | done v => exact decClock_of_result (r := .ok v) (by rw [hdec]; rfl) rfl
  | failed err => exact decClock_of_result (r := .err err) (by rw [hdec]; rfl) rfl

/-- One quiet edge for each coming answer of the source makes what the decoder's loop makes. -/
theorem runSteps_quietDecEdges (ds : List SrcDrive) (s : State) (turns : List Turn) (k : Nat)
    (hsource : s.source = ds) :
    runSteps ds.length (s.timed (List.replicate ds.length quietDecEdge ++ turns) k) =
      .next ((readLoop ds s).timed turns (k + ds.length)) := by
  induction ds generalizing s k with
  | nil => rfl
  | cons d ds ih =>
    by_cases hs : ∃ n acc, s.dec = .reading n acc
    · obtain ⟨n, acc, hs⟩ := hs
      obtain ⟨st, evs, hask⟩ := ask_eq_moveDec d n acc
      have hedge (turns : List Turn) (k : Nat) :
          (s.timed turns k).decClock quietDec = ((s.setSource ds).ask d).timed turns k := by
        rw [← (ask_decoderOnly d).timed]
        exact decClock_reading_cons (s := s.timed turns k) hs rfl hsource
      have hrest : ((s.setSource ds).ask d).source = ds := by rw [hask s ds hs]; rfl
      rw [readLoop_cons d ds s n acc hs]
      calc runSteps (ds.length + 1) (s.timed (quietDecEdge :: List.replicate ds.length quietDecEdge ++ turns) k)
        _ = runSteps ds.length ((s.timed (List.replicate ds.length quietDecEdge ++ turns) (k + 1)).decClock quietDec) :=
          runSteps_env ds.length (.edgeDec quietDec) _ s k
        _ = .next ((readLoop ds ((s.setSource ds).ask d)).timed turns (k + 1 + ds.length)) := by
          rw [hedge, ih _ _ hrest]
        _ = _ := by rw [List.length_cons, Nat.add_right_comm, Nat.add_assoc]
    · rw [readLoop_of_not_reading _ s (fun n acc h => hs ⟨n, acc, h⟩)]
      exact runSteps_replicate_of_fixed (t := .edgeDec quietDec)
        (fun turns k => decClock_quiet_of_not_reading (s := s.timed turns k) hs) _ turns k

/-- Settles O55: the first edge takes the start as DECODE does (`exec_decode_of_idle`), and the others make the loop
(`runSteps_quietDecEdges`). -/
theorem decoderEdgesAgreeWithTheOperation : Obligations.DecoderEdgesAgreeWithTheOperation := by
  intro s hs
  have hexec : exec .decode s = .next (readLoop s.source (s.decEvent .start)) := by
    rw [decEvent_start hs]
    exact exec_decode_of_idle s hs
  have hsource : (s.decEvent .start).source = s.source := by rw [decEvent_start hs]
  have hagenda : (readLoop s.source (s.decEvent .start)).agenda = s.agenda :=
    ((readLoop_decoderOnly s.source).agenda _).trans ((decEvent_decoderOnly .start).agenda s)
  have hedge (turns : List Turn) (k : Nat) :
      (s.timed turns k).decClock ⟨false, true, false⟩ = (s.decEvent .start).timed turns k :=
    (decClock_idle_start (s := s.timed turns k) hs rfl rfl).trans ((decEvent_decoderOnly .start).timed s _ _)
  refine ⟨_, hexec, ?_⟩
  calc runSteps (s.source.length + 1)
        (s.timed (startEdge :: (List.replicate s.source.length quietDecEdge ++ s.agenda)) s.tick)
    _ = runSteps s.source.length ((s.timed (List.replicate s.source.length quietDecEdge ++ s.agenda)
          (s.tick + 1)).decClock ⟨false, true, false⟩) := runSteps_env _ (.edgeDec ⟨false, true, false⟩) _ s _
    _ = .next ((readLoop s.source (s.decEvent .start)).timed s.agenda (s.tick + 1 + s.source.length)) := by
      rw [hedge, runSteps_quietDecEdges s.source _ _ _ hsource]
    _ = _ := by rw [State.timed_of_agenda hagenda, Nat.add_assoc, Nat.add_comm 1]

/-! ## With ready partners -/

/-- The encoder's edge at which its caller takes a result. -/
def takingEnc : EncEdge := ⟨false, false, 0#64, true⟩

theorem State.wroteBytes_wroteBytes (s : State) (e e' : EncState) (ds ds' : List SnkDrive) (bs bs' : List Byte) :
    (s.wroteBytes e ds bs).wroteBytes e' ds' bs' = s.wroteBytes e' ds' (bs ++ bs') := by
  simp [State.wroteBytes]

/-- An edge at which the sink accepts the byte on offer (R113). -/
theorem runSteps_readyEdge (m : Nat) {s : State} {rem : U64} {ds : List SnkDrive} (turns : List Turn) (k : Nat)
    (hs : s.enc = .emit rem) (hsink : s.sink = .ready :: ds) :
    runSteps (m + 1) (s.timed (takeEncEdge :: turns) k) = runSteps m ((s.wroteBytes
      (if 128 ≤ rem.toNat then .emit (rem >>> 7) else .done) ds [encByte rem]).timed turns (k + 1)) :=
  (runSteps_env m (.edgeEnc takingEnc) turns s k).trans (congrArg (runSteps m)
    ((sinkEdgeWritesOneByteOrFails.1 (s.timed turns (k + 1)) rem takingEnc ds hs rfl).1 hsink))

/-- After `j` accepted bytes, fewer than `Len(rem)`, the encoder is in `Emit` with the value shifted `j` times. -/
theorem runSteps_ready_of_lt (j : Nat) (s : State) (rem : U64) (ds : List SnkDrive) (turns : List Turn) (k : Nat)
    (hs : s.enc = .emit rem) (hj : j < encLen rem) (hsink : s.sink = List.replicate j .ready ++ ds) :
    runSteps j (s.timed (List.replicate j takeEncEdge ++ turns) k) =
      .next ((s.wroteBytes (.emit (rem >>> (7 * j))) ds ((encBytes rem).take j)).timed turns (k + j)) := by
  induction j generalizing s rem k with
  | zero =>
    have hself : s.wroteBytes (.emit rem) ds [] = s := by
      simp [State.wroteBytes, ← hs, ← (show s.sink = ds from hsink)]
    simpa [hself] using runSteps_zero (s.timed turns k)
  | succ j ih =>
    have hmore : 128 ≤ rem.toNat := by
      by_contra hsmall
      have := encLen_of_lt rem (by omega)
      omega
    have hlen := encLen_of_ge rem hmore
    have hshift : rem >>> 7 >>> (7 * j) = rem >>> (7 * (j + 1)) := by
      rw [← BitVec.shiftRight_add]
      congr 1
      omega
    rw [List.replicate_succ, List.cons_append, runSteps_readyEdge j _ k hs hsink, if_pos hmore,
      ih _ (rem >>> 7) (k + 1) rfl (by omega) rfl, State.wroteBytes_wroteBytes, hshift, encBytes_of_ge rem hmore,
      Nat.add_right_comm, Nat.add_assoc]
    rfl

/-- After `Len(rem)` accepted bytes the encoder is `Done`: the last one leaves nothing of the value. -/
theorem runSteps_ready_all (s : State) (rem : U64) (ds : List SnkDrive) (turns : List Turn) (k : Nat)
    (hs : s.enc = .emit rem) (hsink : s.sink = List.replicate (encLen rem) .ready ++ ds) :
    runSteps (encLen rem) (s.timed (List.replicate (encLen rem) takeEncEdge ++ turns) k) =
      .next ((s.wroteBytes .done ds (encBytes rem)).timed turns (k + encLen rem)) := by
  obtain ⟨j, hj⟩ : ∃ j, encLen rem = j + 1 := ⟨encLen rem - 1, by have := encLen_pos rem; omega⟩
  have hlast : ¬ 128 ≤ (rem >>> (7 * j)).toNat := by
    rw [shifted_ge_iff rem j (by omega)]
    omega
  have hbytes : encBytes rem = (encBytes rem).take j ++ [encByte (rem >>> (7 * j))] := by
    have htake := List.take_add_one (l := encBytes rem) (i := j)
    rwa [encBytes_getElem rem j (by omega), List.take_of_length_le (by rw [encBytes_length, hj])] at htake
  have hrun := runSteps_ready_of_lt j s rem (.ready :: ds) (takeEncEdge :: turns) k hs (by omega)
    (by rw [hsink, hj, List.replicate_succ']; simp)
  rw [hj, List.replicate_succ', List.append_assoc, List.singleton_append, runSteps_add j 1 _ _ hrun,
    runSteps_readyEdge 0 turns (k + j) rfl rfl, if_neg hlast, State.wroteBytes_wroteBytes, ← hbytes]
  rfl

/-- A willing caller takes a waiting result (R115). -/
theorem encClock_taking_of_result {s : State} {r : EncResult} (hs : s.enc.result = some r) :
    s.encClock takingEnc = { s with enc := .idle, encTrace := s.encTrace ++ [.res r] } :=
  (encClock_of_result hs rfl).trans ((takeEnc_of_result hs).trans (encEvent_res hs))

/-- Settles O56: `runSteps_ready_of_lt` in the middle, `runSteps_ready_all` at the end, and one edge for the result. -/
theorem encodeTakesLenPlusTwoEdges : Obligations.EncodeTakesLenPlusTwoEdges := by
  intro v s ds turns hs hsink hagenda
  have hsink' : (s.encEvent (.cmd v)).sink = List.replicate (encLen v) .ready ++ ds := by
    rw [encEvent_cmd v hs, ← hsink]
  have henc : (s.encEvent (.cmd v)).enc = .emit v := by rw [encEvent_cmd v hs]
  have hstart (m : Nat) : runSteps (m + 1) s = runSteps m
      ((s.encEvent (.cmd v)).timed (List.replicate (encLen v + 1) takeEncEdge ++ turns) (s.tick + 1)) := by
    rw [← runSteps_cmdEdge m v s _ s.tick hs]
    exact congrArg (runSteps (m + 1)) (State.timed_of_agenda hagenda s.tick).symm
  have hdone : runSteps (encLen v + 1) s = .next (((s.encEvent (.cmd v)).wroteBytes .done ds (encBytes v)).timed
      (takeEncEdge :: turns) (s.tick + 1 + encLen v)) := by
    rw [hstart, List.replicate_succ', List.append_assoc, List.singleton_append]
    exact runSteps_ready_all _ v ds _ _ henc hsink'
  refine ⟨by have := encLen_le_ten v; omega, fun j hj => ?_, ?_, ?_⟩
  · obtain ⟨m, hm⟩ : ∃ m, encLen v = j + m := ⟨encLen v - j, by omega⟩
    rw [Nat.add_comm, hstart, hm, Nat.add_assoc, List.replicate_add, List.append_assoc]
    exact ⟨_, runSteps_ready_of_lt j _ v (List.replicate m .ready ++ ds) _ _ henc hj
      (by rw [hsink', hm, List.replicate_add, List.append_assoc]), rfl⟩
  · rw [Nat.add_comm]
    exact ⟨_, hdone, rfl⟩
  · rw [Nat.add_comm 1, runSteps_add _ 1 _ _ hdone]
    refine (runSteps_env 0 (.edgeEnc takingEnc) turns _ _).trans (congrArg Host.Outcome.next ?_)
    refine (encClock_taking_of_result (r := .ok) rfl).trans ?_
    simp [encEvent_cmd v hs, hs, State.wroteBytes, State.timed]
    omega

/-! ## Answered operations end -/

/-- The answered edges at which the encoder's caller takes results that lead from a phase to `Idle`, at most. -/
def encEdgesLeft : EncState → Nat
  | .idle => 0
  | .emit rem => encLen rem + 1
  | .done => 1
  | .failed _ => 1

/-- A byte that is accepted takes one edge off. -/
theorem encEdgesLeft_after_wr (rem : U64) :
    encEdgesLeft (if 128#64 ≤ rem then .emit (rem >>> 7) else .done) = encLen rem := by
  by_cases h : 128#64 ≤ rem
  · rw [if_pos h, encLen_of_ge rem ((le_iff_toNat rem).1 h)]
    rfl
  · rw [if_neg h, encLen_of_lt rem (by rw [le_iff_toNat] at h; omega)]
    rfl

/-- The sink will answer each byte that is left to write. -/
def State.SinkAnswers (s : State) : Prop :=
  encEdgesLeft s.enc ≤ s.sink.length + 1 ∧ ∀ d ∈ s.sink, d.answer.isSome = true

/-- An answered edge in `Emit`, by its answer (R113, R114). -/
theorem encClock_answered {s : State} {rem : U64} {d : SnkDrive} {ds : List SnkDrive} {e : EncEdge}
    (hrst : e.rst = false) (hs : s.enc = .emit rem) (hsink : s.sink = d :: ds) (hd : d.answer.isSome = true) :
    (s.encClock e).sink = ds ∧ encEdgesLeft (s.encClock e).enc ≤ encLen rem := by
  obtain ⟨a, ha⟩ := Option.isSome_iff_exists.1 hd
  rw [encClock_emit_cons hrst hs hsink]
  cases a with
  | ok =>
    rw [offer_ok (s.setSink ds) rem hs d ha]
    exact ⟨rfl, (encEdgesLeft_after_wr rem).le⟩
  | fail err =>
    rw [offer_fail (s.setSink ds) rem hs d err ha]
    exact ⟨rfl, encLen_pos rem⟩

/-- An answered edge with a willing caller leaves one edge fewer. -/
theorem encClock_taking_edgesLeft {s : State} (h : s.SinkAnswers) :
    (s.encClock takingEnc).SinkAnswers ∧ encEdgesLeft (s.encClock takingEnc).enc ≤ encEdgesLeft s.enc - 1 := by
  have hresult (r : EncResult) (hs : s.enc.result = some r) :
      (s.encClock takingEnc).SinkAnswers ∧ encEdgesLeft (s.encClock takingEnc).enc ≤ encEdgesLeft s.enc - 1 := by
    rw [encClock_taking_of_result hs]
    exact ⟨⟨Nat.zero_le _, h.2⟩, Nat.zero_le _⟩
  cases hs : s.enc with
  | idle =>
    rw [encClock_idle rfl hs rfl, hs]
    exact ⟨h, Nat.zero_le _⟩
  | done => exact hs ▸ hresult .ok (by rw [hs]; rfl)
  | failed err => exact hs ▸ hresult (.io err) (by rw [hs]; rfl)
  | emit rem =>
    obtain ⟨hlen, hanswers⟩ := h
    have hpos := encLen_pos rem
    rw [hs, encEdgesLeft] at hlen
    cases hsink : s.sink with
    | nil =>
      rw [hsink, List.length_nil] at hlen
      omega
    | cons d ds =>
      rw [hsink] at hlen hanswers
      obtain ⟨hrest, hleft⟩ := encClock_answered (e := takingEnc) rfl hs hsink (hanswers d (by simp))
      refine ⟨⟨?_, fun c hc => hanswers c (by rw [hrest] at hc; simp [hc])⟩, hleft⟩
      rw [hrest]
      simp only [List.length_cons] at hlen
      omega

/-- As many edges as are left lead the encoder to `Idle`. -/
theorem runSteps_answeredEncEdges (m : Nat) (s : State) (k : Nat) (h : s.SinkAnswers) (hm : encEdgesLeft s.enc ≤ m) :
    ∃ t, runSteps m (s.timed (List.replicate m takeEncEdge) k) = .next t ∧ t.enc = .idle := by
  induction m generalizing s k with
  | zero =>
    refine ⟨_, rfl, ?_⟩
    cases hs : s.enc with
    | idle => exact hs
    | _ => simp [hs, encEdgesLeft] at hm
  | succ m ih =>
    obtain ⟨hnext, hleft⟩ := encClock_taking_edgesLeft h
    obtain ⟨t, hrun, ht⟩ := ih (s.encClock takingEnc) (k + 1) hnext (by omega)
    refine ⟨t, ?_, ht⟩
    rw [← hrun, ← (encClock_movesEncoder takingEnc).timed]
    exact runSteps_env m (.edgeEnc takingEnc) _ s k

theorem encEdgesLeft_le (st : EncState) : encEdgesLeft st ≤ 11 := by
  cases st with
  | emit rem => exact Nat.succ_le_succ (encLen_le_ten rem)
  | _ => simp [encEdgesLeft]

/-- The decoder's edge at which its caller takes a result. -/
def takingDec : DecEdge := ⟨false, false, true⟩

/-- A willing caller takes a waiting result (R148). -/
theorem decClock_taking_of_result {s : State} {r : DecResult} (hs : s.dec.result = some r) :
    s.decClock takingDec = { s with dec := .idle, decTrace := s.decTrace ++ [.res r] } :=
  (decClock_of_result hs rfl).trans ((takeDec_of_result hs).trans (decEvent_res hs))

/-- The answered edges at which the decoder's caller takes results that lead from a phase to `Idle`, at most. -/
def decEdgesLeft : DecState → Nat
  | .idle => 0
  | .reading n _ => 10 - n.val + 1
  | .done _ => 1
  | .failed _ => 1

/-- A byte that is consumed takes one edge off. -/
theorem decEdgesLeft_readByte (n : Fin 10) (acc : U64) (b : Byte) : decEdgesLeft (readByte n acc b) ≤ 10 - n.val := by
  cases hb : contBit b with
  | false =>
    rw [readByte_term hb, decEdgesLeft]
    omega
  | true =>
    by_cases hn : n.val = 9
    · rw [readByte_over hb hn, decEdgesLeft, hn]
    · rw [readByte_cont (m := ⟨n.val + 1, by omega⟩) hb rfl]
      show 10 - (n.val + 1) + 1 ≤ 10 - n.val
      omega

/-- The source will answer each byte that can be left to read. -/
def State.SourceAnswers (s : State) : Prop :=
  decEdgesLeft s.dec ≤ s.source.length + 1 ∧ ∀ d ∈ s.source, d.answer.isSome = true

/-- An answered edge in `Reading`, by its answer (R143 to R147). -/
theorem decClock_answered {s : State} {n : Fin 10} {acc : U64} {d : SrcDrive} {ds : List SrcDrive} {e : DecEdge}
    (hrst : e.rst = false) (hs : s.dec = .reading n acc) (hsource : s.source = d :: ds)
    (hd : d.answer.isSome = true) :
    (s.decClock e).source = ds ∧ decEdgesLeft (s.decClock e).dec ≤ 10 - n.val := by
  obtain ⟨a, ha⟩ := Option.isSome_iff_exists.1 hd
  cases a with
  | byte b =>
    rw [decClock_reading_cons hs hrst hsource, ask_byte (s.setSource ds) n acc hs d b ha]
    exact ⟨rfl, decEdgesLeft_readByte n acc b⟩
  | fail err =>
    rw [decClock_fail hs hrst hsource ha]
    exact ⟨rfl, by rw [decEdgesLeft]; omega⟩

/-- An answered edge with a willing caller leaves one edge fewer. -/
theorem decClock_taking_edgesLeft {s : State} (h : s.SourceAnswers) :
    (s.decClock takingDec).SourceAnswers ∧ decEdgesLeft (s.decClock takingDec).dec ≤ decEdgesLeft s.dec - 1 := by
  have hresult (r : DecResult) (hs : s.dec.result = some r) :
      (s.decClock takingDec).SourceAnswers ∧ decEdgesLeft (s.decClock takingDec).dec ≤ decEdgesLeft s.dec - 1 := by
    rw [decClock_taking_of_result hs]
    exact ⟨⟨Nat.zero_le _, h.2⟩, Nat.zero_le _⟩
  cases hs : s.dec with
  | idle =>
    rw [decClock_idle rfl hs rfl, hs]
    exact ⟨h, Nat.zero_le _⟩
  | done v => exact hs ▸ hresult (.ok v) (by rw [hs]; rfl)
  | failed err => exact hs ▸ hresult (.err err) (by rw [hs]; rfl)
  | reading n acc =>
    obtain ⟨hlen, hanswers⟩ := h
    have hn := n.isLt
    rw [hs, decEdgesLeft] at hlen
    cases hsource : s.source with
    | nil =>
      rw [hsource, List.length_nil] at hlen
      omega
    | cons d ds =>
      rw [hsource] at hlen hanswers
      obtain ⟨hrest, hleft⟩ := decClock_answered (e := takingDec) rfl hs hsource (hanswers d (by simp))
      refine ⟨⟨?_, fun c hc => hanswers c (by rw [hrest] at hc; simp [hc])⟩, hleft⟩
      rw [hrest]
      simp only [List.length_cons] at hlen
      omega

/-- As many edges as are left lead the decoder to `Idle`. -/
theorem runSteps_answeredDecEdges (m : Nat) (s : State) (k : Nat) (h : s.SourceAnswers)
    (hm : decEdgesLeft s.dec ≤ m) :
    ∃ t, runSteps m (s.timed (List.replicate m takeDecEdge) k) = .next t ∧ t.dec = .idle := by
  induction m generalizing s k with
  | zero =>
    refine ⟨_, rfl, ?_⟩
    cases hs : s.dec with
    | idle => exact hs
    | _ => simp [hs, decEdgesLeft] at hm
  | succ m ih =>
    obtain ⟨hnext, hleft⟩ := decClock_taking_edgesLeft h
    obtain ⟨t, hrun, ht⟩ := ih (s.decClock takingDec) (k + 1) hnext (by omega)
    refine ⟨t, ?_, ht⟩
    rw [← hrun, ← (decClock_movesDecoder takingDec).timed]
    exact runSteps_env m (.edgeDec takingDec) _ s k

theorem decEdgesLeft_le (st : DecState) : decEdgesLeft st ≤ 11 := by
  cases st with
  | reading n acc => exact Nat.succ_le_succ (Nat.sub_le 10 n.val)
  | _ => simp [decEdgesLeft]

/-- Settles O57: every phase leaves eleven edges at most, and each answered edge takes one off. -/
theorem answeredOperationsEndWithinElevenEdges : Obligations.AnsweredOperationsEndWithinElevenEdges := by
  refine ⟨fun s ds hlen hanswers => ?_, fun s ds hlen hanswers => ?_⟩
  · exact runSteps_answeredEncEdges 11 { s with sink := ds } s.tick ⟨hlen ▸ encEdgesLeft_le s.enc, hanswers⟩
      (encEdgesLeft_le s.enc)
  · exact runSteps_answeredDecEdges 11 { s with source := ds } s.tick ⟨hlen ▸ decEdgesLeft_le s.dec, hanswers⟩
      (decEdgesLeft_le s.dec)

end Sys2Proof.Machine

/-! PROOFS. 42_invariants.md, the prefix property: successive DECODEs read successive encodings back. -/

namespace Sys2Proof.Machine

/-- The results handed over are those before and after. -/
theorem decResults_append (tr evs : List DecEvent) : decResults (tr ++ evs) = decResults tr ++ decResults evs :=
  List.filterMap_append

/-- Reading bytes hands over nothing. -/
theorem decResults_rds (bs : List Byte) : decResults (bs.map DecEvent.rd) = [] := by
  induction bs with
  | nil => rfl
  | cons b bs ih => exact ih

theorem decResults_decode (bs : List Byte) (r : DecResult) :
    decResults (.start :: bs.map DecEvent.rd ++ [.res r]) = [r] := by
  rw [decResults_append, show decResults (.start :: bs.map DecEvent.rd) = [] from decResults_rds bs]
  rfl

theorem takeDec_of_done {s : State} {v : U64} (hs : s.dec = .done v) :
    s.takeDec = s.moveDec .idle s.source [.res (.ok v)] :=
  (takeDec_of_result (r := .ok v) (by rw [hs]; rfl)).trans (decEvent_res (by rw [hs]; rfl))

/-- A step that calls DECODE where `Enc(v)` stands at the front of the source. -/
theorem step_decode_of_encBytes (v : U64) {s : State} {ds : List SrcDrive} {turns : List Turn} (hs : s.dec = .idle)
    (hsource : s.source = (encBytes v).map SrcDrive.byte ++ ds) (hagenda : s.agenda = .decode :: turns) :
    step s = .next ((s.moveDec (.done v) ds (.start :: (encBytes v).map DecEvent.rd)).timed turns (s.tick + 1)) := by
  have hanswers : s.advance.sourceAnswers = (encBytes v).map SrcAnswer.byte ++ ds.filterMap SrcDrive.answer := by
    rw [State.sourceAnswers, State.advance_source, hsource, answers_bytes]
  have hpast : pastAnswers SrcDrive.answer (encBytes v).length s.advance.source = ds := by
    rw [State.advance_source, hsource, pastAnswers_bytes _ _ _ le_rfl, List.drop_length]
    rfl
  rw [step_of_cons hagenda]
  refine (exec_decode_of_encBytes v s.advance _ hs hanswers).trans ?_
  rw [hpast, advance_of_cons hagenda]
  rfl

/-- One DECODE of the bytes of `Enc(v)` and its result taken: exactly those bytes are consumed and `v` is handed
over. -/
theorem runSteps_decode_take (v : U64) {s : State} {ds : List SrcDrive} {turns : List Turn} (hs : s.dec = .idle)
    (hsource : s.source = (encBytes v).map SrcDrive.byte ++ ds)
    (hagenda : s.agenda = .decode :: .env .takeDec :: turns) :
    ∃ t, runSteps 2 s = .next t ∧ t.dec = .idle ∧ t.source = ds ∧ t.agenda = turns ∧
      decResults t.decTrace = decResults s.decTrace ++ [.ok v] := by
  have hrun : runSteps 2 s = .next
      (((s.moveDec (.done v) ds (.start :: (encBytes v).map DecEvent.rd)).timed turns (s.tick + 2)).takeDec) := by
    rw [runSteps_succ, step_decode_of_encBytes v hs hsource hagenda]
    exact runSteps_env 0 .takeDec turns _ _
  rw [takeDec_of_done (v := v) rfl] at hrun
  refine ⟨_, hrun, rfl, rfl, rfl, ?_⟩
  rw [← decResults_decode (encBytes v) (.ok v), ← decResults_append, ← List.append_assoc]
  rfl

/-- Settles O60: by induction on the values, one DECODE and its result at a time (`runSteps_decode_take`). -/
theorem successiveDecodesReadBackSuccessiveEncodes : Obligations.SuccessiveDecodesReadBackSuccessiveEncodes := by
  intro vs
  induction vs with
  | nil => exact fun s ds turns hs hsource hagenda => ⟨s, rfl, hs, hsource, hagenda, (List.append_nil _).symm⟩
  | cons v vs ih =>
    intro s ds turns hs hsource hagenda
    obtain ⟨u, hfirst, huidle, hurest, huturns, huresults⟩ := runSteps_decode_take v (s := s)
      (ds := (vs.flatMap encBytes).map SrcDrive.byte ++ ds)
      (turns := vs.flatMap (fun _ => [.decode, .env .takeDec]) ++ turns) hs (by simp [hsource]) (by simp [hagenda])
    obtain ⟨t, hrun, hidle, hrest, hturns, hresults⟩ := ih u ds turns huidle hurest huturns
    refine ⟨t, ?_, hidle, hrest, hturns, ?_⟩
    · rw [List.length_cons, Nat.mul_succ, Nat.add_comm, runSteps_add 2 _ _ _ hfirst, hrun]
    · rw [hresults, huresults, List.append_assoc]
      rfl

end Sys2Proof.Machine
